-- ==== Sys2Proof/Word.lean ====
section
/-!
DEFINITION. The word types of the block (spec/00_scope.md R9, R10): an 8-bit colour channel, a 4-bit nibble, a
16-bit symbol word, a 64-bit command word and a 32-bit response word. Bit 0 is the least significant bit (R11).
-/

namespace Sys2Proof

/-- A colour channel, 8 bits (R9). -/
abbrev Byte := BitVec 8

/-- Half a colour channel: the index of the Timing Table, 4 bits (R9). -/
abbrev Nibble := BitVec 4

/-- A symbol word: 16 bit slots of the data line (R9). -/
abbrev Symbol := BitVec 16

/-- A command word `CMD[63:0]` (R10, R100). -/
abbrev CmdWord := BitVec 64

/-- A response word `RSP[31:0]` (R10, R102). -/
abbrev RspWord := BitVec 32

end Sys2Proof
end

