-- ==== Sys2Proof/Config.lean ====
section
/-!
DEFINITION. What one implementation fixes (the parameters of spec/00_scope.md R8) and what the environment chooses
(the moves of the agents of spec/10_state.md R30, with the draws that belong to them).
-/

namespace Sys2Proof

/-- The implementation parameters of R8. The spec leaves every one of them open, so they are data that a statement
quantifies over; no step of the machine writes them (R49). `fBit` is the bit clock `F_BIT` in hertz (R8, C10): no
step reads it, only the informative durations of Machine/Line.lean do. DESIGN CHOICE (log entry 1): R8 leaves its
exact value OPEN and does not say that it is an integer; the model admits whole hertz only, and any of them. -/
structure Params where
  /-- `N_PORTS`: the number of host command ports, at least 1. -/
  nPorts : Nat
  /-- `MAX_LEDS`: the capacity of the pixel store, at most 65535 entries. -/
  maxLeds : Nat
  /-- `TXBUF_WORDS`: the capacity of the transmit buffer, at least 4 words. -/
  txbufWords : Nat
  /-- `F_BIT`: the bit clock of the external transport, in whole hertz (DESIGN CHOICE, log entry 1). -/
  fBit : Nat
deriving DecidableEq, Repr

/-- The default transmit buffer of R8: `6 * MAX_LEDS + 31` words hold a full frame of either strip model. -/
def Params.ofCapacity (nPorts maxLeds fBit : Nat) : Params :=
  { nPorts := nPorts, maxLeds := maxLeds, txbufWords := 6 * maxLeds + 31, fBit := fBit }

/-- The parameters of the ONE machine `State.reset` names. DESIGN CHOICE (log entry 1): the spec leaves `N_PORTS`,
`MAX_LEDS` and `TXBUF_WORDS` OPEN; `F_BIT` is the source's nominal 3.2 MHz. No statement rests on them. -/
def Config.params : Params := Params.ofCapacity 2 256 3200000

/-- One choice of the environment: which agent of R30 is asked to take its step, with the draws of that step.
A move whose agent has no enabled step leaves the block as it is (log entry 3). -/
inductive Move where
  /-- `HOST(p)` presents the command word `cmd` on port `p` (R120). -/
  | present (p : Nat) (cmd : CmdWord)
  /-- `HOST(p)` takes the response waiting on port `p` (R122). -/
  | take (p : Nat)
  /-- `PORT(p)` executes its pending command or takes one fill step (R121, R166). `tok` is the transport's answer
  should the command be an INIT that configures it (R272). -/
  | port (p : Nat) (tok : Bool)
  /-- `ENGINE` takes one encode step (R194-R196). -/
  | engine
  /-- `TRANSPORT` takes one word (R237). -/
  | transportWord
  /-- `TRANSPORT` completes the transmission, reporting OK (`true`) or TRANSMIT_ERROR (`false`) (R238). -/
  | transportEnd (ok : Bool)
  /-- `RST` asserts the hardware reset (R341). -/
  | reset
deriving DecidableEq, Repr, Inhabited

/-- The environment's move number `n` where `State.sched` lists none. A FREE VALUE (log entry 2): R82 lets any
enabled step of any agent come next, in any order, so nothing constrains it. -/
opaque Config.freeMove : Nat → Move

/-- The level of the data line in slot `j` of rest period `n`, where that period follows a block reset. A FREE VALUE
(log entry 8): I13 gives the line any value there. -/
opaque Config.levelAfterReset : Nat → Nat → Bool

end Sys2Proof
end

