-- ==== Sys2Proof/Syntax.lean ====
section
/-!
DEFINITION. The commands: `Instr`, one constructor per row of spec/opcode_table.json with the operands of
spec/30_encoding.md R103, and the assembler's lines (R123, R124), whose operands are plain numbers that
WellFormed.lean checks.
-/

namespace Sys2Proof

/-- The strip model, the value of CR1 MODEL (R33): 0 = Model A (GRB, short gap), 1 = Model B (RGB, long gap). -/
inductive StripModel where
  | modelA
  | modelB
deriving DecidableEq, Repr, Inhabited

/-- A colour: three 8-bit channels, no alpha, no packed numeric form (R41, C2). -/
structure Color where
  r : Byte
  g : Byte
  b : Byte
deriving DecidableEq, Repr, Inhabited

/-- The zero colour, black/off: what INIT leaves in every entry (R272). -/
def Color.black : Color := { r := 0, g := 0, b := 0 }

/-- The host commands (R106). Each operand has exactly the width of its field (R101, R103), so every term is a
command some word encodes. -/
inductive Instr where
  /-- `INIT m, count` (R270). -/
  | init (m : StripModel) (count : BitVec 16)
  /-- `TEARDOWN` (R275). -/
  | teardown
  /-- `SET_PIXEL index, r, g, b` (R160). -/
  | setPixel (index : BitVec 16) (c : Color)
  /-- `FILL_ALL r, g, b` (R165). -/
  | fillAll (c : Color)
  /-- `GET_PIXEL index` (R170). -/
  | getPixel (index : BitVec 16)
  /-- `UPDATE` (R230). -/
  | update
  /-- `LUT_READ nibble` (R145). -/
  | lutRead (n : Nibble)
deriving DecidableEq, Repr, Inhabited

/-- One assembler command (R123) or pseudo-command (R124); numbers are as written, not yet checked. -/
inductive AsmOp where
  | init (m : StripModel) (count : Nat)
  | teardown
  | setPixel (index r g b : Nat)
  | fillAll (r g b : Nat)
  | getPixel (index : Nat)
  | update
  | lutRead (nibble : Nat)
  /-- `FILL_BLACK`, the pseudo-command for `FILL_ALL 0, 0, 0`. -/
  | fillBlack
  /-- `OFF index`, the pseudo-command for `SET_PIXEL index, 0, 0, 0`. -/
  | off (index : Nat)
deriving DecidableEq, Repr

/-- One line of assembly: a command, optionally prefixed by its port `p<N>:` (R123). -/
structure AsmLine where
  port : Option Nat
  op : AsmOp
deriving DecidableEq, Repr

end Sys2Proof
end

