-- ==== Sys2Proof/WellFormed.lean ====
section
/-!
DEFINITION. The checks of the syntax: the operand ranges of an assembler line (spec/30_encoding.md R123) and the
legal values of the parameters (spec/00_scope.md R8). A term of `Instr` needs no check of its own: the width of each
operand IS its field's range (R103).
-/

namespace Sys2Proof

/-- A `count` or `index` fits the 16-bit ARG field (R123). -/
def fitsArg (n : Nat) : Bool := n ≤ 65535

/-- A colour channel fits its 8-bit field (R123). -/
def fitsChannel (n : Nat) : Bool := n ≤ 255

/-- A nibble fits `CMD[19:16]` (R123). -/
def fitsNibble (n : Nat) : Bool := n ≤ 15

/-- No operand is out of its field's range; one that is makes the line an assembly error, never a truncation (R123). -/
def AsmOp.wellFormed : AsmOp → Bool
  | .init _ count => fitsArg count
  | .teardown => true
  | .setPixel index r g b => fitsArg index && fitsChannel r && fitsChannel g && fitsChannel b
  | .fillAll r g b => fitsChannel r && fitsChannel g && fitsChannel b
  | .getPixel index => fitsArg index
  | .update => true
  | .lutRead nibble => fitsNibble nibble
  | .fillBlack => true
  | .off index => fitsArg index

/-- The operands are in range (R123) and the line's port, where it names one, is one of the block's ports
`0 .. N_PORTS-1` (R30). DESIGN CHOICE (log entry 12): R123 names no assembly error for a port prefix; the model makes
one of a port the block does not have. -/
def AsmLine.wellFormed (c : Params) (l : AsmLine) : Bool :=
  l.op.wellFormed && (match l.port with | none => true | some p => p < c.nPorts)

/-- The ranges R8 gives the parameters. R8 gives `F_BIT` none, so `fBit` is not checked and 0 is admitted: a DESIGN
CHOICE (log entry 1) that no step can see. -/
def Params.legal (c : Params) : Bool :=
  1 ≤ c.nPorts && c.maxLeds ≤ 65535 && 4 ≤ c.txbufWords

end Sys2Proof
end

