-- ==== Sys2Proof/Decode.lean ====
section
/-!
DEFINITION. The command encoding of spec/30_encoding.md: the fields of `CMD64` (R101), the mask/match table (R107),
the decoder (R109, R111), the encoder written from the same tables, and the assembler (R123, R124).
-/

namespace Sys2Proof

/-- The operations of R106. -/
inductive Op where
  | init | teardown | setPixel | fillAll | getPixel | update | lutRead
deriving DecidableEq, Repr

/-- One row of R107: a command word is this command iff `CMD & mask = pattern`. -/
structure Row where
  op : Op
  mask : CmdWord
  pattern : CmdWord
deriving DecidableEq, Repr

/-- The row of each operation: its mask and match (R107). -/
def Op.row : Op → Row
  | .init     => { op := .init,     mask := 0xFFFFFFFF0000FEFF#64, pattern := 0x0000000000000001#64 }
  | .teardown => { op := .teardown, mask := 0xFFFFFFFFFFFFFFFF#64, pattern := 0x0000000000000002#64 }
  | .setPixel => { op := .setPixel, mask := 0xFF0000000000FFFF#64, pattern := 0x0000000000000003#64 }
  | .fillAll  => { op := .fillAll,  mask := 0xFF000000FFFFFFFF#64, pattern := 0x0000000000000004#64 }
  | .getPixel => { op := .getPixel, mask := 0xFFFFFFFF0000FFFF#64, pattern := 0x0000000000000005#64 }
  | .update   => { op := .update,   mask := 0xFFFFFFFFFFFFFFFF#64, pattern := 0x0000000000000006#64 }
  | .lutRead  => { op := .lutRead,  mask := 0xFFFFFFFFFFF0FFFF#64, pattern := 0x0000000000000007#64 }

/-- The table of R107, in its order. -/
def opcodeTable : List Row :=
  [Op.row .init, Op.row .teardown, Op.row .setPixel, Op.row .fillAll, Op.row .getPixel, Op.row .update, Op.row .lutRead]

/-- The row's test of R109. -/
def Row.accepts (r : Row) (w : CmdWord) : Bool := w &&& r.mask == r.pattern

/-- Field `OP`, `CMD[3:0]` (R101). -/
def opField (w : CmdWord) : BitVec 4 := w.extractLsb' 0 4

/-- Field `MODEL`, `CMD[8]`: 0 = Model A, 1 = Model B (R101, R103). -/
def modelField (w : CmdWord) : StripModel := if w.getLsbD 8 then .modelB else .modelA

/-- Field `ARG`, `CMD[31:16]`: the index or the count (R101, R103). -/
def argField (w : CmdWord) : BitVec 16 := w.extractLsb' 16 16

/-- The nibble operand, `CMD[19:16]` (R101, R103). -/
def nibbleField (w : CmdWord) : Nibble := w.extractLsb' 16 4

/-- The colour operand: `r = CMD[39:32]`, `g = CMD[47:40]`, `b = CMD[55:48]` (R103). -/
def colorField (w : CmdWord) : Color :=
  { r := w.extractLsb' 32 8, g := w.extractLsb' 40 8, b := w.extractLsb' 48 8 }

/-- Why a word is no command (R111). -/
inductive Illegal where
  /-- `OP` is `0x0` or `0x8 .. 0xF`. -/
  | reservedOp
  /-- `OP` names a command, and a bit its row requires to be 0 is set. -/
  | mustBeZeroBitSet
deriving DecidableEq, Repr

/-- The command of a word that a row accepts: its operands, unsigned and zero-extended (R103). -/
def operandsOf (op : Op) (w : CmdWord) : Instr :=
  match op with
  | .init     => .init (modelField w) (argField w)
  | .teardown => .teardown
  | .setPixel => .setPixel (argField w) (colorField w)
  | .fillAll  => .fillAll (colorField w)
  | .getPixel => .getPixel (argField w)
  | .update   => .update
  | .lutRead  => .lutRead (nibbleField w)

/-- The name under which a word no row accepts is rejected (R111). -/
def illegalReason (w : CmdWord) : Illegal :=
  if 1 ≤ (opField w).toNat ∧ (opField w).toNat ≤ 7 then .mustBeZeroBitSet else .reservedOp

/-- `decode(CMD)` of R109: the first row that accepts the word, else ILLEGAL. It reads no state (R110). -/
def decode (w : CmdWord) : Except Illegal Instr :=
  match opcodeTable.find? (fun r => r.accepts w) with
  | some r => .ok (operandsOf r.op w)
  | none => .error (illegalReason w)

/-- The host's reading of a table word: a command is one 64-bit word (R100), so the instruction's bits above `nbits`
are 0 and a number that is no 64-bit word is no command. -/
def decodeTableWord (nbits w : Nat) : Option Instr :=
  if w % 2 ^ nbits < 2 ^ 64 then
    match decode (BitVec.ofNat 64 (w % 2 ^ nbits)) with
    | .ok i => some i
    | .error _ => none
  else none

/-- `{RSV2, B, G, R, ARG, RSV1, MODEL, RSV0, OP}` of R101, the reserved fields 0. -/
def packCommand (op : BitVec 4) (model : BitVec 1) (arg : BitVec 16) (r g b : Byte) : CmdWord :=
  op.setWidth 64 ||| (model.setWidth 64 <<< 8) ||| (arg.setWidth 64 <<< 16)
    ||| (r.setWidth 64 <<< 32) ||| (g.setWidth 64 <<< 40) ||| (b.setWidth 64 <<< 48)

/-- The MODEL bit of a strip model (R33). -/
def StripModel.bit : StripModel → BitVec 1
  | .modelA => 0
  | .modelB => 1

/-- The operation of a command. -/
def Instr.op : Instr → Op
  | .init _ _     => .init
  | .teardown     => .teardown
  | .setPixel _ _ => .setPixel
  | .fillAll _    => .fillAll
  | .getPixel _   => .getPixel
  | .update       => .update
  | .lutRead _    => .lutRead

/-- The word of a command, from the fields of R101 and the opcodes of R106. -/
def encode : Instr → CmdWord
  | .init m count     => packCommand 1 m.bit count 0 0 0
  | .teardown         => packCommand 2 0 0 0 0 0
  | .setPixel index c => packCommand 3 0 index c.r c.g c.b
  | .fillAll c        => packCommand 4 0 0 c.r c.g c.b
  | .getPixel index   => packCommand 5 0 index 0 0 0
  | .update           => packCommand 6 0 0 0 0 0
  | .lutRead n        => packCommand 7 0 (n.setWidth 16) 0 0 0

/-- The command an assembler line stands for; a pseudo-command is exactly one command (R124). Used on checked
operands only. -/
def AsmOp.instr : AsmOp → Instr
  | .init m count => .init m (BitVec.ofNat 16 count)
  | .teardown => .teardown
  | .setPixel index r g b =>
      .setPixel (BitVec.ofNat 16 index) { r := BitVec.ofNat 8 r, g := BitVec.ofNat 8 g, b := BitVec.ofNat 8 b }
  | .fillAll r g b => .fillAll { r := BitVec.ofNat 8 r, g := BitVec.ofNat 8 g, b := BitVec.ofNat 8 b }
  | .getPixel index => .getPixel (BitVec.ofNat 16 index)
  | .update => .update
  | .lutRead nibble => .lutRead (BitVec.ofNat 4 nibble)
  | .fillBlack => .fillAll Color.black
  | .off index => .setPixel (BitVec.ofNat 16 index) Color.black

/-- The word an assembler line assembles to; an operand out of its range is an assembly error (R123). -/
def AsmOp.assemble (a : AsmOp) : Option CmdWord :=
  if a.wellFormed then some (encode a.instr) else none

end Sys2Proof
end

