-- ==== Sys2Proof/Machine/State.lean ====
section
/-!
DEFINITION. Every piece of state spec/10_state.md gives the block (R32-R47), as plain data, with the reset values of
R50; the parameters the state was built with; and the environment's choices (the model's own fields `draw`, `sched`
and `draws`). The reasons a step can stop are here too.
-/

namespace Sys2Proof.Machine

/-- CR0 LIFE, 1 bit (R32). -/
inductive Life where
  /-- 0: no driver instance. -/
  | uninit
  /-- 1: an instance exists. -/
  | ready
deriving DecidableEq, Repr

/-- CR5 PHASE (R38). -/
inductive Phase where
  | idle
  | encHead
  | encPix (i : Nat)
  | encTail
  | tx (k : Nat)
deriving DecidableEq, Repr

/-- The completion statuses of R108. 7 to 15 are never produced, so they have no name. -/
inductive Status where
  | ok
  | outOfRange
  | outOfMemory
  | transportInitError
  | transmitError
  | stateError
  | illegalCommand
deriving DecidableEq, Repr

/-- `PORT[p]` (R45). -/
inductive PortState where
  /-- No command outstanding. -/
  | idle
  /-- A command presented and not yet executed; an UPDATE that is held stays so. -/
  | pending (cmd : CmdWord)
  /-- A FILL_ALL in progress: its colour and the next index. -/
  | filling (c : Color) (i : Nat)
  /-- This port's UPDATE owns the gate. -/
  | updating
  /-- A response waiting for the host. -/
  | done (rsp : RspWord)
deriving DecidableEq, Repr

/-- An event of the output history WIRE (R47). -/
inductive WireEvent where
  /-- The transport is handed the frame: its length in bits. -/
  | frameStart (bitLength : Nat)
  /-- Word `k` of the frame was shifted onto the data line. -/
  | word (k : Nat) (w : Symbol)
  /-- The transmission ended with this status. -/
  | frameEnd (st : Status)
  /-- The block was reset (R341). -/
  | reset
deriving DecidableEq, Repr

/-- An indexed storage array (R70): its written entries, as pairs of index and entry in strictly rising index order.
An index not listed is *unwritten* (R41, R42). -/
abbrev Memory (α : Type) := List (Nat × α)

/-- The canonical form of a storage array: indices strictly rising. An unwritten entry has no value, so no listed
entry can equal what an unlisted index reads as. -/
def Memory.wf {α : Type} : Memory α → Bool
  | [] => true
  | [_] => true
  | (a, _) :: (b, y) :: m => decide (a < b) && Memory.wf ((b, y) :: m)

/-- What the environment chose for the step now being taken (the model's own field): the port whose step it is, and
the transport's answer should the step configure it (R272). -/
structure Draw where
  port : Nat
  tok : Bool
deriving DecidableEq, Repr

/-- The block and its environment's choices. -/
structure State where
  /-- The implementation parameters (R8, R49): no step writes them. -/
  params : Params
  /-- CR0 LIFE, 1 bit (R32). -/
  life : Life
  /-- CR1 MODEL, 1 bit (R33). -/
  model : StripModel
  /-- CR2 LED_COUNT, 16 bits (R34). -/
  ledCount : BitVec 16
  /-- CR3 BUSY, 1 bit: the Transmit Gate is taken (R37). -/
  busy : Bool
  /-- CR4 OWNER, a port number: the port whose UPDATE owns the gate (R37). -/
  owner : Nat
  /-- CR5 PHASE, the engine phase (R38). -/
  phase : Phase
  /-- CR6 TCFG, 1 bit: the transport is configured (R39). -/
  tcfg : Bool
  /-- `PIXEL[0 .. MAX_LEDS-1]`, the Pixel Store (R41). -/
  pixel : Memory Color
  /-- `TXBUF[0 .. TXBUF_WORDS-1]`, the Transmit Buffer (R42). -/
  txbuf : Memory Symbol
  /-- `PORT[0 .. N_PORTS-1]` (R45). -/
  ports : List PortState
  /-- WIRE, the output history, oldest event first (R47). -/
  wire : List WireEvent
  /-- The model's own: the draws of the step being taken. -/
  draw : Draw
  /-- The model's own: the moves the environment makes next, the next one first. -/
  sched : List Move
  /-- The model's own: how many free moves have been drawn; past the end of `sched` move number `draws` is
  `Config.freeMove draws`. -/
  draws : Nat
deriving DecidableEq, Repr

/-- The conditions of R316, in which a model has no meaning. No state that the machine reaches from power-on meets
one. All are SAFE: the machine stops rather than produce a value. -/
inductive Fault where
  /-- Raised by a read of an unwritten `PIXEL` entry: GET_PIXEL, `ENC_PIX` (R71). Safe. -/
  | pixelUnwritten
  /-- Raised by an access to `PIXEL` at an index of `MAX_LEDS` or more, which is no entry (R70). Safe. -/
  | pixelNoSuchEntry
  /-- Raised by a read of an unwritten `TXBUF` word: the transport's word step (R72). Safe. -/
  | txbufUnwritten
  /-- Raised by a write to `TXBUF` at an index of `TXBUF_WORDS` or more, which is no word (R70, R193). Safe. -/
  | txbufNoSuchWord
  /-- Raised by every step but reset where `PHASE` is outside R38. Safe. -/
  | phaseOutsideRules
  /-- Raised by every step but reset where a `PORT` value is outside R45, and by a completion whose owner is not
  `updating`. Safe. -/
  | portOutsideRules
deriving DecidableEq, Repr

/-- Why the model gives a command no meaning. -/
inductive Refusal where
  /-- Raised by `exec` for a command whose meaning is not written; no arm raises it. Safe. -/
  | notModelled (mnemonic : String)
deriving DecidableEq, Repr

/-- The block right after power-on, built with the parameters `c` (R50, R340). The values of the model's own fields
are a DESIGN CHOICE (log entries 2 and 4). -/
def State.powerOn (c : Params) : State :=
  { params := c
    life := .uninit
    model := .modelA
    ledCount := 0
    busy := false
    owner := 0
    phase := .idle
    tcfg := false
    pixel := []
    txbuf := []
    ports := List.replicate c.nPorts .idle
    wire := []
    draw := { port := 0, tok := true }
    sched := []
    draws := 0 }

/-- The machine right after reset, for the parameters Config.lean names. -/
def State.reset : State := State.powerOn Config.params

end Sys2Proof.Machine
end

