-- ==== Sys2Proof/Machine/Flags.lean ====
section
/-!
DEFINITION. The block has no condition codes (spec/30_encoding.md R108): what stands for them is the status of a
response. Status numbers, the response word, the derived sizes of spec/10_state.md R35 and R36, and the conditions
under which a status is raised (spec/60_exceptions.md R301, R303).
-/

namespace Sys2Proof.Machine

/-- The number of a status (R108). -/
def Status.code : Status → BitVec 4
  | .ok                 => 0
  | .outOfRange         => 1
  | .outOfMemory        => 2
  | .transportInitError => 3
  | .transmitError      => 4
  | .stateError         => 5
  | .illegalCommand     => 6

/-- The response `{d, s}`: 28 data bits above the 4 status bits (R102, R121). -/
def responseWord (st : Status) (d : BitVec 28) : RspWord := d ++ st.code

/-- `MODEL_TABLE[m].RESET_DELAY`: the number of trailing zero words (R44). -/
def resetDelay : StripModel → Nat
  | .modelA => 3
  | .modelB => 30

/-- The sizing formula `N = L * 6 + (RD + 1)` (R200). -/
def frameWordCount (m : StripModel) (leds : Nat) : Nat := leds * 6 + resetDelay m + 1

/-- LED_COUNT as the natural number it is compared and multiplied as (R16, R34). -/
def State.leds (s : State) : Nat := s.ledCount.toNat

/-- RESET_WORDS, derived (R35). -/
def State.resetWords (s : State) : Nat := resetDelay s.model

/-- TX_WORDS, derived (R36). -/
def State.txWords (s : State) : Nat := frameWordCount s.model s.leds

/-- OUT_OF_MEMORY's condition: a buffer cannot hold the requested strip (R271). -/
def overCapacity (c : Params) (m : StripModel) (leds : Nat) : Bool :=
  decide (c.maxLeds < leds) || decide (c.txbufWords < frameWordCount m leds)

/-- OUT_OF_RANGE's condition (R160, R170). -/
def State.outOfRange (s : State) (index : Nat) : Bool := decide (s.leds ≤ index)

/-- `PORT[p] = filling(_, _)`. -/
def PortState.isFilling : PortState → Bool
  | .filling _ _ => true
  | .idle => false
  | .pending _ => false
  | .updating => false
  | .done _ => false

/-- An update or a fill is in flight: what keeps TEARDOWN from running (R275, R303). -/
def State.active (s : State) : Bool := s.busy || s.ports.any PortState.isFilling

/-- PHASE has a value R38 gives it: its index in range, and IDLE exactly when BUSY = 0. -/
def State.phaseLegal (s : State) : Bool :=
  match s.phase with
  | .idle     => !s.busy
  | .encHead  => s.busy
  | .encPix i => s.busy && decide (i < s.leds)
  | .encTail  => s.busy
  | .tx k     => s.busy && decide (k ≤ s.txWords)

/-- The value `q` of `PORT[p]` is one R45 gives it: a fill's next index is in range, and `updating` is the owner of
the taken gate. -/
def State.portLegal (s : State) (p : Nat) (q : PortState) : Bool :=
  match q with
  | .filling _ i => decide (i < s.leds)
  | .updating    => s.busy && decide (s.owner = p)
  | .idle        => true
  | .pending _   => true
  | .done _      => true

/-- Every PORT has a value R45 gives it. -/
def State.portsLegal (s : State) : Bool := s.ports.zipIdx.all fun e => s.portLegal e.2 e.1

/-- PHASE and every PORT are inside R38 and R45: outside them a model has no meaning (R316). -/
def State.rulesHold (s : State) : Bool := s.phaseLegal && s.portsLegal

end Sys2Proof.Machine
end

