-- ==== Sys2Proof/Machine/Operands.lean ====
section
/-!
DEFINITION. How an operand value is taken apart: the channels of a colour in the order of the strip model
(spec/10_state.md R44, spec/42_frame_encoder.md R192), a channel's two nibbles (spec/00_scope.md R16), and a colour
as the data bits of a response (spec/30_encoding.md R102).
-/

namespace Sys2Proof.Machine

/-- A named colour channel (R41). -/
inductive Channel where
  | red
  | green
  | blue
deriving DecidableEq, Repr

/-- `channel(c, ch)` of R191. -/
def Channel.of (ch : Channel) (c : Color) : Byte :=
  match ch with
  | .red   => c.r
  | .green => c.g
  | .blue  => c.b

/-- `ORDER(MODEL)`, the order column of `MODEL_TABLE` (R44, R192): GRB for Model A, RGB for Model B. -/
def channelOrder : StripModel → List Channel
  | .modelA => [.green, .red, .blue]
  | .modelB => [.red, .green, .blue]

/-- `v[7:4]` (R16). -/
def highNibble (v : Byte) : Nibble := v.extractLsb' 4 4

/-- `v[3:0]` (R16). -/
def lowNibble (v : Byte) : Nibble := v.extractLsb' 0 4

/-- GET_PIXEL's data bits `{b, g, r, 0b0000}` (R170). -/
def colorData (c : Color) : BitVec 28 := c.b ++ c.g ++ c.r ++ 0#4

/-- LUT_READ's data bits `{symbol, 0x000}` (R145). -/
def symbolData (w : Symbol) : BitVec 28 := w ++ 0#12

end Sys2Proof.Machine
end

