-- ==== Sys2Proof/Machine/Ops.lean ====
section
/-!
DEFINITION. The shared operations: the entry reads and writes of the storage arrays (spec/20_memory.md R71, R72),
the updates of one state element, and the completion of a command. The block has no traps
(spec/60_exceptions.md R300): `raise` IS its exception, a response with an error status and no other change.
-/

namespace Sys2Proof.Machine

/-- The entry at index `k`, none where it is unwritten. -/
def Memory.read {α : Type} : Memory α → Nat → Option α
  | [], _ => none
  | (a, v) :: m, k => if k = a then some v else Memory.read m k

/-- The array with entry `k` replaced. -/
def Memory.write {α : Type} : Memory α → Nat → α → Memory α
  | [], k, v => [(k, v)]
  | (a, x) :: m, k, v =>
      if k < a then (k, v) :: (a, x) :: m
      else if k = a then (k, v) :: m
      else (a, x) :: Memory.write m k v

/-- The array with the entries from index `k` on replaced by `vs`. -/
def Memory.writeAll {α : Type} : Memory α → Nat → List α → Memory α
  | m, _, [] => m
  | m, k, v :: vs => Memory.writeAll (m.write k v) (k + 1) vs

/-- The array with the entries `0 .. n-1` replaced by `v`. -/
def Memory.fillBelow {α : Type} (m : Memory α) (n : Nat) (v : α) : Memory α :=
  (List.range n).map (fun i => (i, v)) ++ m.filter (fun e => n ≤ e.1)

/-- `PORT[p] <- q`. -/
def State.setPort (s : State) (p : Nat) (q : PortState) : State := { s with ports := s.ports.set p q }

/-- `PHASE <- ph`. -/
def State.setPhase (s : State) (ph : Phase) : State := { s with phase := ph }

/-- `WIRE <- WIRE ++ [e]` (R47). -/
def State.emit (s : State) (e : WireEvent) : State := { s with wire := s.wire ++ [e] }

/-- `PIXEL <- m`, the whole array. -/
def State.setPixels (s : State) (m : Memory Color) : State := { s with pixel := m }

/-- `TXBUF <- m`, the whole array. -/
def State.setTxbuf (s : State) (m : Memory Symbol) : State := { s with txbuf := m }

/-- The Transmit Gate taken by port `p`: BUSY and OWNER (R37). -/
def State.takeGate (s : State) (p : Nat) : State := { s with busy := true, owner := p }

/-- The Transmit Gate released: BUSY; OWNER keeps the last owner (R37, I17). -/
def State.releaseGate (s : State) : State := { s with busy := false }

/-- The draws of the step being taken. -/
def State.setDraw (s : State) (d : Draw) : State := { s with draw := d }

/-- The read `PIXEL[i]` (R71): a whole entry; a fault where there is no such entry or it is unwritten (R316). -/
def readPixel (s : State) (i : Nat) : Except Fault Color :=
  if i < s.params.maxLeds then
    match s.pixel.read i with
    | some c => .ok c
    | none => .error .pixelUnwritten
  else .error .pixelNoSuchEntry

/-- The write `PIXEL[i] <- c` (R71): all three channels at once. -/
def writePixel (s : State) (i : Nat) (c : Color) : Except Fault State :=
  if i < s.params.maxLeds then .ok (s.setPixels (s.pixel.write i c))
  else .error .pixelNoSuchEntry

/-- The read `TXBUF[k]` (R72); a fault where the word is unwritten (R316), as every index past the buffer is. -/
def readSymbol (s : State) (k : Nat) : Except Fault Symbol :=
  match s.txbuf.read k with
  | some w => .ok w
  | none => .error .txbufUnwritten

/-- The writes `TXBUF[k] <- w` of one encode step (R72, R78): consecutive words from index `k` on, all at once. -/
def writeSymbols (s : State) (k : Nat) (ws : List Symbol) : Except Fault State :=
  if k + ws.length ≤ s.params.txbufWords then .ok (s.setTxbuf (s.txbuf.writeAll k ws))
  else .error .txbufNoSuchWord

/-- `respond(p, st, d)` (R12, R121): `PORT[p] <- done({d, st})`. -/
def respond (p : Nat) (st : Status) (d : BitVec 28) (s : State) : State := s.setPort p (.done (responseWord st d))

/-- `raise st` inside a command rule (R12): respond with the error status, data bits 0 and no other state change.
This is the whole of taking an error (R300, R302, R306); there is nothing to return from (R307). -/
def raise (st : Status) (s : State) : State := respond s.draw.port st 0#28 s

/-- `respond(p, OK, d)` on the port whose command is executing. -/
def complete (d : BitVec 28) (s : State) : State := respond s.draw.port .ok d s

/-- What a step of a shared operation that may fault passes on. -/
def proceed {α : Type} (r : Except Fault α) (k : α → Host.Outcome State Fault Refusal) :
    Host.Outcome State Fault Refusal :=
  match r with
  | .ok a => k a
  | .error f => .fault f

/-- A step of any agent but RST: a fault where PHASE or a PORT is outside the rules, whatever the step would do; else
`r`. R316 asks for the fault; that every such step makes the check, PHASE before PORT, is a DESIGN CHOICE (log
entry 7). -/
def checked (s : State) (r : Host.Outcome State Fault Refusal) : Host.Outcome State Fault Refusal :=
  if s.phaseLegal then
    if s.portsLegal then r else .fault .portOutsideRules
  else .fault .phaseOutsideRules

end Sys2Proof.Machine
end

