-- ==== Sys2Proof/Machine/Lifecycle.lean ====
section
/-!
DEFINITION. The lifecycle commands INIT and TEARDOWN (spec/44_lifecycle.md).
-/

namespace Sys2Proof.Machine

/-- An instance with strip model `m` and `count` LEDs, its pixels black, its transport configured (R270, R272). -/
def State.openInstance (s : State) (m : StripModel) (count : BitVec 16) : State :=
  { s with
    model := m
    ledCount := count
    pixel := s.pixel.fillBelow count.toNat Color.black
    tcfg := true
    life := .ready }

/-- No instance: both buffers and the transport are released (R275, R276). -/
def State.closeInstance (s : State) : State :=
  { s with
    life := .uninit
    tcfg := false
    model := .modelA
    ledCount := 0
    pixel := []
    txbuf := [] }

/-- INIT (R270-R273), one step; `s.draw.tok` is the transport's answer to its configuration, a draw (R272). -/
def execInit (m : StripModel) (count : BitVec 16) (s : State) : Host.Outcome State Fault Refusal :=
  if s.life = .ready then .next (raise .stateError s)
  else if overCapacity s.params m count.toNat then .next (raise .outOfMemory s)
  else if s.draw.tok = false then .next (raise .transportInitError s)
  else .next (complete 0#28 (s.openInstance m count))

/-- TEARDOWN (R275, R276): both buffers and the transport are released. OWNER is not written (I17). -/
def execTeardown (s : State) : Host.Outcome State Fault Refusal :=
  if s.life = .uninit then .next (raise .stateError s)
  else if s.active then .next (raise .stateError s)
  else .next (complete 0#28 s.closeInstance)

end Sys2Proof.Machine
end

