-- ==== Sys2Proof/Machine/PixelStore.lean ====
section
/-!
DEFINITION. The Pixel Store commands SET_PIXEL, FILL_ALL and GET_PIXEL (spec/41_pixel_store.md). Each is the step of
`PORT(p)` with the command pending, `p` the port of the state's draw; the checks stand in the order of
spec/60_exceptions.md R304.
-/

namespace Sys2Proof.Machine

/-- SET_PIXEL (R160). -/
def execSetPixel (index : BitVec 16) (c : Color) (s : State) : Host.Outcome State Fault Refusal :=
  if s.life = .uninit then .next (raise .stateError s)
  else if s.outOfRange index.toNat then .next (raise .outOfRange s)
  else proceed (writePixel s index.toNat c) fun t => .next (complete 0#28 t)

/-- FILL_ALL's accepting step (R165); the fill steps follow. -/
def execFillAll (c : Color) (s : State) : Host.Outcome State Fault Refusal :=
  if s.life = .uninit then .next (raise .stateError s)
  else if s.leds = 0 then .next (complete 0#28 s)
  else .next (s.setPort s.draw.port (.filling c 0))

/-- FILL_ALL's step with `PORT[p] = filling(c, i)` (R166): one entry, then the next index or the response. -/
def fillStep (p : Nat) (c : Color) (i : Nat) (s : State) : Host.Outcome State Fault Refusal :=
  proceed (writePixel s i c) fun t =>
    if i + 1 = s.leds then .next (respond p .ok 0#28 t) else .next (t.setPort p (.filling c (i + 1)))

/-- GET_PIXEL (R170). -/
def execGetPixel (index : BitVec 16) (s : State) : Host.Outcome State Fault Refusal :=
  if s.life = .uninit then .next (raise .stateError s)
  else if s.outOfRange index.toNat then .next (raise .outOfRange s)
  else proceed (readPixel s index.toNat) fun c => .next (complete (colorData c) s)

end Sys2Proof.Machine
end

