-- ==== Sys2Proof/Machine/TimingTable.lean ====
section
/-!
DEFINITION. The Timing Table (spec/40_timing_lut.md R140-R144) and LUT_READ (R145).
-/

namespace Sys2Proof.Machine

/-- `SUB(b)`: the 4-bit sub-symbol of one protocol bit (R141). -/
def subSymbol (b : Bool) : Nibble := if b then 0b0111#4 else 0b0001#4

/-- `LUT(n) = {SUB(n[0]), SUB(n[1]), SUB(n[2]), SUB(n[3])}` (R141): lane `k` carries nibble bit `3-k`. -/
def lut (n : Nibble) : Symbol :=
  subSymbol (n.getLsbD 0) ++ subSymbol (n.getLsbD 1) ++ subSymbol (n.getLsbD 2) ++ subSymbol (n.getLsbD 3)

/-- LUT_READ (R145): allowed in both lifecycle states and while an update is in flight. -/
def execLutRead (n : Nibble) (s : State) : Host.Outcome State Fault Refusal :=
  .next (complete (symbolData (lut n)) s)

end Sys2Proof.Machine
end

