-- ==== Sys2Proof/Machine/TransmitGate.lean ====
section
/-!
DEFINITION. The Transmit Gate: UPDATE (spec/43_transmit_gate.md R230-R235) and the steps of `TRANSPORT` at the
block's interface (R236-R240).
-/

namespace Sys2Proof.Machine

/-- UPDATE (R230): held while the gate is taken (R232), else the gate is acquired and the engine started (R231). The
step that runs it has checked PHASE and the ports (`checked`, R316), so PHASE is IDLE where BUSY = 0. -/
def execUpdate (s : State) : Host.Outcome State Fault Refusal :=
  if s.life = .uninit then .next (raise .stateError s)
  else if s.busy then .next s
  else .next (((s.takeGate s.draw.port).setPhase .encHead).setPort s.draw.port .updating)

/-- `TRANSPORT` takes word `k` (R237). It has no such step outside `TX(k)` with `k < N`. -/
def transportWordStep (s : State) : Host.Outcome State Fault Refusal :=
  match s.phase with
  | .tx k =>
      if k < s.txWords then
        proceed (readSymbol s k) fun w => .next ((s.emit (.word k w)).setPhase (.tx (k + 1)))
      else .next s
  | .idle     => .next s
  | .encHead  => .next s
  | .encPix _ => .next s
  | .encTail  => .next s

/-- The status a transmission ends with: the transport's, unchanged (R235). -/
def transmitStatus (ok : Bool) : Status := if ok then .ok else .transmitError

/-- The completion of a transmission (R238, R240): the event, the gate released, the owner answered. The owner's
port must be `updating`, as R45 says of it, or the state is outside the rules (R316). -/
def finishTransmission (ok : Bool) (s : State) : Host.Outcome State Fault Refusal :=
  if s.ports[s.owner]? = some .updating then
    .next (respond s.owner (transmitStatus ok) 0#28
      ((s.emit (.frameEnd (transmitStatus ok))).releaseGate.setPhase .idle))
  else .fault .portOutsideRules

/-- `TRANSPORT` completes (R238): with OK only when every word was taken, with TRANSMIT_ERROR at any `TX(k)`. -/
def transportEndStep (ok : Bool) (s : State) : Host.Outcome State Fault Refusal :=
  match s.phase with
  | .tx k =>
      if ok = false ∨ k = s.txWords then finishTransmission ok s else .next s
  | .idle     => .next s
  | .encHead  => .next s
  | .encPix _ => .next s
  | .encTail  => .next s

end Sys2Proof.Machine
end

