-- ==== Sys2Proof/Machine/Dispatch.lean ====
section
/-!
DEFINITION. One arm per command (spec/30_encoding.md R106, R121): the step of the port of the state's draw, with this
command pending on it.
-/

namespace Sys2Proof.Machine

def exec (i : Instr) (s : State) : Host.Outcome State Fault Refusal :=
  match i with
  | .init m count => Sys2Proof.Machine.execInit m count s
  | .teardown => Sys2Proof.Machine.execTeardown s
  | .setPixel index c => Sys2Proof.Machine.execSetPixel index c s
  | .fillAll c => Sys2Proof.Machine.execFillAll c s
  | .getPixel index => Sys2Proof.Machine.execGetPixel index s
  | .update => Sys2Proof.Machine.execUpdate s
  | .lutRead n => Sys2Proof.Machine.execLutRead n s

end Sys2Proof.Machine
end

