-- ==== Sys2Proof/Machine/FrameEncoder.lean ====
section
/-!
DEFINITION. The Frame Encoder (spec/42_frame_encoder.md): the frame of R191 as a list of symbol words, and the steps
of `ENGINE` that write it (R194-R196).
-/

namespace Sys2Proof.Machine

/-- The two words of a channel value: high nibble first (R191). -/
def channelSymbols (v : Byte) : List Symbol := [lut (highNibble v), lut (lowNibble v)]

/-- The six words of a pixel, in the strip model's channel order (R191, R192). -/
def pixelSymbols (m : StripModel) (c : Color) : List Symbol :=
  (channelOrder m).flatMap fun ch => channelSymbols (ch.of c)

/-- The frame `F[0 .. N-1]` of the colours `cs`: the leading zero word, six words a pixel, the reset gap (R191). -/
def frame (m : StripModel) (cs : List Color) : List Symbol :=
  0#16 :: (cs.flatMap (pixelSymbols m) ++ List.replicate (resetDelay m) 0#16)

/-- `ENC_HEAD` (R194): the leading zero word. -/
def encHeadStep (s : State) : Host.Outcome State Fault Refusal :=
  proceed (writeSymbols s 0 [0#16]) fun t =>
    .next (t.setPhase (if 0 < s.leds then .encPix 0 else .encTail))

/-- `ENC_PIX(i)` (R195): the one read of entry `i` in this pass and its six words. -/
def encPixStep (i : Nat) (s : State) : Host.Outcome State Fault Refusal :=
  proceed (readPixel s i) fun c =>
    proceed (writeSymbols s (1 + 6 * i) (pixelSymbols s.model c)) fun t =>
      .next (t.setPhase (if i + 1 < s.leds then .encPix (i + 1) else .encTail))

/-- `ENC_TAIL` (R196): the reset gap, then the hand-over to the transport with `bitLength = 16 * N`. -/
def encTailStep (s : State) : Host.Outcome State Fault Refusal :=
  proceed (writeSymbols s (1 + 6 * s.leds) (List.replicate s.resetWords 0#16)) fun t =>
    .next ((t.emit (.frameStart (16 * s.txWords))).setPhase (.tx 0))

/-- One step of `ENGINE` (R30). It has none in `IDLE` and in `TX(k)`. -/
def engineStep (s : State) : Host.Outcome State Fault Refusal :=
  match s.phase with
  | .idle     => .next s
  | .encHead  => encHeadStep s
  | .encPix i => encPixStep i s
  | .encTail  => encTailStep s
  | .tx _     => .next s

end Sys2Proof.Machine
end

