-- ==== Sys2Proof/Machine/Agents.lean ====
section
/-!
DEFINITION. The steps of the agents of spec/10_state.md R30, and which of them comes next: the machine takes one step
of one agent at a time, in any order (spec/20_memory.md R82).
-/

namespace Sys2Proof.Machine

/-- `HOST(p)` presents a command, only while the port is idle (R46, R120). -/
def hostPresent (p : Nat) (cmd : CmdWord) (s : State) : State :=
  if s.ports[p]? = some .idle then s.setPort p (.pending cmd) else s

/-- The response `HOST(p)` receives if it takes one now (R122). -/
def State.response (s : State) (p : Nat) : Option RspWord :=
  match s.ports[p]? with
  | some (.done rsp)      => some rsp
  | some .idle            => none
  | some (.pending _)     => none
  | some (.filling _ _)   => none
  | some .updating        => none
  | none                  => none

/-- `HOST(p)` takes the response (R122): the port is idle again. -/
def hostTake (p : Nat) (s : State) : State :=
  if (s.response p).isSome then s.setPort p .idle else s

/-- `PORT(p)` executes its pending command (R121), a word that is no command being answered ILLEGAL_COMMAND (R111),
or takes one fill step (R166). It has no step otherwise. -/
def portStep (p : Nat) (s : State) : Host.Outcome State Fault Refusal :=
  match s.ports[p]? with
  | some (.pending w) =>
      match decode w with
      | .ok i => exec i s
      | .error _ => .next (raise .illegalCommand s)
  | some (.filling c i) => fillStep p c i s
  | some .idle          => .next s
  | some .updating      => .next s
  | some (.done _)      => .next s
  | none                => .next s

/-- The hardware reset (R341): every element at its reset value of R50, but WIRE is extended by one `Reset` event.
The environment's own moves go on. -/
def resetBlock (s : State) : State :=
  { State.powerOn s.params with
    wire := s.wire ++ [.reset], draw := s.draw, sched := s.sched, draws := s.draws }

/-- The step of the agent the environment chose. Each but reset is taken only inside the rules for PHASE and PORT
(R316, log entry 7); reset is a step in any state (R341). -/
def moveStep (m : Move) (s : State) : Host.Outcome State Fault Refusal :=
  match m with
  | .present p cmd   => checked s (.next (hostPresent p cmd s))
  | .take p          => checked s (.next (hostTake p s))
  | .port p tok      => checked s (portStep p (s.setDraw { port := p, tok := tok }))
  | .engine          => checked s (engineStep s)
  | .transportWord   => checked s (transportWordStep s)
  | .transportEnd ok => checked s (transportEndStep ok s)
  | .reset           => .next (resetBlock s)

/-- The environment's next move: the first of `sched`, or a free one (log entry 2). -/
def State.nextMove (s : State) : Move :=
  match s.sched with
  | m :: _ => m
  | [] => Config.freeMove s.draws

/-- The state with the next move used up. -/
def State.advance (s : State) : State :=
  match s.sched with
  | _ :: rest => { s with sched := rest }
  | [] => { s with draws := s.draws + 1 }

/-- A command word stored where a port finds its next command, and that port's step made the next move: port 0, with
the draw's own answer of the transport (log entry 5). -/
def State.withCommand (s : State) (w : CmdWord) : State :=
  { s.setPort 0 (.pending w) with sched := .port 0 s.draw.tok :: s.sched }

end Sys2Proof.Machine
end

