-- ==== Sys2Proof/Machine/Step.lean ====
section
/-!
DEFINITION. One step of the machine: the environment's next move, taken by its agent (spec/00_scope.md R13). There is
no program to fetch from (spec/10_state.md R31): a command is fetched from the port it was presented on.
-/

namespace Sys2Proof.Machine

/-- One atomic step of one agent (R13, R82). -/
def step (s : State) : Host.Outcome State Fault Refusal :=
  moveStep s.nextMove s.advance

/-- `s` with the command word `w` (its bits above `nbits` zero) pending on port 0 and that port's step next. -/
def State.withFetchWord (s : State) (nbits w : Nat) : State :=
  s.withCommand (BitVec.ofNat 64 (w % 2 ^ nbits))

end Sys2Proof.Machine
end

