-- ==== Sys2Proof/Machine/Line.lean ====
section
/-!
DEFINITION. What the data line carries: the bit slots of symbol words (spec/20_memory.md R74, R75,
spec/43_transmit_gate.md R245), the configuration the transport is given (R236), and the informative durations of
spec/70_reset_and_hazards.md R351. `true` is the line high.
-/

namespace Sys2Proof.Machine

/-- The bit slots of a value of `n` bits sent bit 0 first (R74). -/
def slots {n : Nat} (w : BitVec n) : List Bool := (List.range n).map w.getLsbD

/-- The bit slots of words sent in index order with no gap between them (R74, R245). -/
def lineOf (ws : List Symbol) : List Bool := ws.flatMap fun w => slots w

/-- The byte view of a word: byte `2k` is bits 7:0, byte `2k+1` is bits 15:8 (R75). -/
def symbolBytes (w : Symbol) : List Byte := [w.extractLsb' 0 8, w.extractLsb' 8 8]

/-- The byte view of a transmit buffer's words (R75). -/
def byteView (ws : List Symbol) : List Byte := ws.flatMap symbolBytes

/-- The pulse of one protocol bit: high for one slot, or for three, of four (R142). -/
def pulse (b : Bool) : List Bool := if b then [true, true, true, false] else [true, false, false, false]

/-- The 8 protocol bits of a channel in the order they go onto the line, bit 7 first (R203). -/
def channelBits (v : Byte) : List Bool := (List.range 8).map fun i => v.getLsbD (7 - i)

/-- The 24 protocol bits of a pixel in the order they go onto the line (R203). -/
def pixelBits (m : StripModel) (c : Color) : List Bool := (channelOrder m).flatMap fun ch => channelBits (ch.of c)

/-- How many slots at the end of a line sequence are low. -/
def trailingLow (l : List Bool) : Nat := (l.reverse.takeWhile (fun b => !b)).length

/-- How many slots at the start of a line sequence are low. -/
def leadingLow (l : List Bool) : Nat := (l.takeWhile (fun b => !b)).length

/-- The `Word` events of a frame's words, the first of them word `k` (R237). -/
def wordEvents : Nat → List Symbol → List WireEvent
  | _, [] => []
  | k, w :: ws => .word k w :: wordEvents (k + 1) ws

/-- The words that the events of WIRE record as shifted onto the data line, in order (R47, R245). -/
def wireWords : List WireEvent → List Symbol
  | [] => []
  | .word _ w :: es      => w :: wireWords es
  | .frameStart _ :: es  => wireWords es
  | .frameEnd _ :: es    => wireWords es
  | .reset :: es         => wireWords es

/-- The bit slots the data line has carried while frames were being sent (R245). -/
def State.line (s : State) : List Bool := lineOf (wireWords s.wire)

/-- The level of the line outside a transmission (R246): low, a duty of the transport (R239, log entry 8). -/
def idleLevel : Bool := false

/-- What the line is doing: at rest, carrying a frame, or at rest after a block reset, when I13 gives it any level. -/
inductive LineNow where
  | idle
  | sending
  | afterReset
deriving DecidableEq, Repr

/-- What the line is doing after an event of WIRE. -/
def LineNow.after (now : LineNow) (e : WireEvent) : LineNow :=
  match e with
  | .frameStart _ => .sending
  | .word _ _     => now
  | .frameEnd _   => .idle
  | .reset        => .afterReset

/-- The slots of rest period `n`, `len` of them. A frame being sent has none: it is one continuous transmission
(R239). -/
def restSlots (now : LineNow) (n len : Nat) : List Bool :=
  match now with
  | .idle       => List.replicate len idleLevel
  | .sending    => []
  | .afterReset => (List.range len).map (Config.levelAfterReset n)

/-- Everything the line carries over the events of WIRE, rest included: rest period `n` lasts `rest n` slots, the
environment's choice (R202, D34). Rest comes before a frame, before a reset, and last. -/
def lineFrom (rest : Nat → Nat) : LineNow → Nat → List WireEvent → List Bool
  | now, n, []                  => restSlots now n (rest n)
  | now, n, .frameStart b :: es => restSlots now n (rest n) ++ lineFrom rest (now.after (.frameStart b)) (n + 1) es
  | now, n, .word k w :: es     => slots w ++ lineFrom rest (now.after (.word k w)) n es
  | now, n, .frameEnd st :: es  => lineFrom rest (now.after (.frameEnd st)) n es
  | now, n, .reset :: es        => restSlots now n (rest n) ++ lineFrom rest (now.after .reset) (n + 1) es

/-- The line from power-on to now, with rest periods of these lengths: before the first frame, between frames, after
a TEARDOWN or the last frame (R245, R246). -/
def State.lineHistory (s : State) (rest : Nat → Nat) : List Bool := lineFrom rest .idle 0 s.wire

/-- What the line is doing now (R246). -/
def State.lineNow (s : State) : LineNow := s.wire.foldl LineNow.after .idle

/-- What INIT configures the transport with (R236, R272). -/
structure TransportConfig where
  /-- The bit clock, in hertz. -/
  clock : Nat
  spiMode : Nat
  lsbFirst : Bool
deriving DecidableEq, Repr

/-- Bit clock `F_BIT`, mode 0, least significant bit first (R236). -/
def transportConfig (c : Params) : TransportConfig := { clock := c.fBit, spiMode := 0, lsbFirst := true }

/-- The configuration the transport holds: INIT's while TCFG is set, none otherwise (R39). -/
def State.transport (s : State) : Option TransportConfig := if s.tcfg then some (transportConfig s.params) else none

/-- The duration of `n` bit slots at the bit clock, in nanoseconds (R351; informative). -/
def slotsNanoseconds (fBit n : Nat) : Rat := n * 1000000000 / fBit

end Sys2Proof.Machine
end

