-- ==== Sys2Proof/Safety.lean ====
section
/-!
DEFINITION. The terms statements are made in: the invariants of spec/10_state.md R48, which states a run reaches,
which moves have an enabled step, and when a run is over (spec/70_reset_and_hazards.md R354).
-/

namespace Sys2Proof

/-- The move is a step of the block or the transport, not of HOST or RST (R354). -/
def Move.ofBlock : Move → Bool
  | .present _ _ => false
  | .take _ => false
  | .port _ _ => true
  | .engine => true
  | .transportWord => true
  | .transportEnd _ => true
  | .reset => false

end Sys2Proof

namespace Sys2Proof.Machine

/-- How many words of TXBUF the encode pass in progress has written, or has completed (R194-R197). -/
def State.encodedWords (s : State) : Nat :=
  match s.phase with
  | .idle     => 0
  | .encHead  => 0
  | .encPix i => 1 + 6 * i
  | .encTail  => 1 + 6 * s.leds
  | .tx _     => s.txWords

/-- The invariants of R48, with what the rules they are derived from say of the registers' legal values (R8, R34,
R37-R39, R45), of the unwritten entries (R41, R42, R80, R276) and the canonical form of the arrays. -/
structure State.Inv (s : State) : Prop where
  /-- The parameters are in the ranges of R8. -/
  paramsLegal : s.params.legal = true
  /-- There is one port state for each of the `N_PORTS` ports (R45). -/
  portCount : s.ports.length = s.params.nPorts
  /-- PIXEL is in canonical form. -/
  pixelForm : s.pixel.wf = true
  /-- TXBUF is in canonical form. -/
  txbufForm : s.txbuf.wf = true
  /-- R48 item 4, and no entry at `LED_COUNT` or above is written (R41, R276). -/
  pixelWritten : ∀ i, (s.pixel.read i).isSome = decide (i < s.leds)
  /-- No word at `TX_WORDS` or above is written (R80), and none while there is no instance (R276). -/
  txbufInUse : ∀ k, (s.txbuf.read k).isSome = true → k < s.txWords ∧ s.life = .ready
  /-- R48 item 1, of the registers. -/
  uninitRegisters : s.life = .uninit → s.busy = false ∧ s.model = .modelA ∧ s.ledCount = 0
  /-- `TCFG = LIFE` (R39). -/
  tcfgIsLife : s.tcfg = decide (s.life = .ready)
  /-- R48 item 3, of the pixel store. -/
  ledsFit : s.leds ≤ s.params.maxLeds
  /-- R48 item 3, of the transmit buffer. -/
  wordsFit : s.life = .ready → s.txWords ≤ s.params.txbufWords
  /-- PHASE is in range, and IDLE exactly when BUSY = 0 (R38, R48 item 2). -/
  phaseInRules : s.phaseLegal = true
  /-- OWNER is a port number (R40). -/
  ownerIsPort : s.owner < s.params.nPorts
  /-- R48 item 2: the owner of a taken gate is `updating`. -/
  ownerUpdating : s.busy = true → s.ports[s.owner]? = some .updating
  /-- R48 item 2: no other port is, and none while the gate is free. -/
  updatingOwns : ∀ p : Nat, s.ports[p]? = some .updating → s.busy = true ∧ p = s.owner
  /-- A fill's next index is in range (R45); so none is in progress while there is no instance (R48 item 1). -/
  fillInRange : ∀ (p : Nat) (c : Color) (i : Nat), s.ports[p]? = some (.filling c i) → i < s.leds
  /-- Every word the pass has reached is written; in `TX(k)` that is R48 item 5. -/
  encodedWritten : ∀ j, j < s.encodedWords → (s.txbuf.read j).isSome = true

/-- TXBUF begins with the words `ws`. -/
def State.txbufHolds (s : State) (ws : List Symbol) : Prop := ∀ j, j < ws.length → s.txbuf.read j = ws[j]?

/-- The colours the latest encode pass has read (R195), after the next step, given those it had read before it:
`ENC_HEAD` starts a pass, `ENC_PIX(i)` reads `PIXEL[i]`, and no other step of any agent reads for the pass. -/
def State.sampled (s : State) (cs : List Color) : List Color :=
  if s.nextMove = .engine then
    match s.phase with
    | .encHead  => []
    | .encPix i => cs ++ (s.pixel.read i).toList
    | .idle     => cs
    | .encTail  => cs
    | .tx _     => cs
  else cs

/-- What ties TXBUF and WIRE to ONE encode pass (R84, R197, R242), the one that has read the colours `cs`: TXBUF holds
the frame of R191 for exactly these, as far as the pass has come; and in `TX(k)` WIRE ends with the hand-over of that
frame and its first `k` words. -/
def State.FrameInv (s : State) (cs : List Color) : Prop :=
  match s.phase with
  | .idle     => True
  | .encHead  => True
  | .encPix i => cs.length = i ∧ s.txbufHolds (0#16 :: cs.flatMap (pixelSymbols s.model))
  | .encTail  => cs.length = s.leds ∧ s.txbufHolds (0#16 :: cs.flatMap (pixelSymbols s.model))
  | .tx k     => cs.length = s.leds ∧ s.txbufHolds (frame s.model cs) ∧
      ∃ earlier : List WireEvent,
        s.wire = earlier ++ .frameStart (16 * s.txWords) :: wordEvents 0 ((frame s.model cs).take k)

/-- A response word of R102 and R108: a status of 0 to 6, bits 7:4 zero, and no data beside an error. -/
def legalResponse (rsp : RspWord) : Bool :=
  decide ((rsp.extractLsb' 0 4).toNat ≤ 6) && rsp.extractLsb' 4 4 == 0#4 &&
    (rsp.extractLsb' 0 4 == 0#4 || rsp.extractLsb' 4 28 == 0#28)

/-- Every response waiting for its host is one of R102. -/
def State.ResponsesLegal (s : State) : Prop :=
  ∀ (p : Nat) (rsp : RspWord), s.ports[p]? = some (.done rsp) → legalResponse rsp = true

/-- The states a run reaches from power-on (R340), whatever moves the environment makes (R82): `sched` may list any
moves to begin with. Beside the state stand the colours that the run's latest encode pass has read so far. -/
inductive Reachable (c : Params) : State → List Color → Prop
  | powerOn (moves : List Move) : Reachable c { State.powerOn c with sched := moves } []
  | step (s t : State) (cs : List Color) :
      Reachable c s cs → Sys2Proof.Machine.step s = .next t → Reachable c t (s.sampled cs)

/-- `PORT(p)` has a step (R121, R166): a pending command that is not a held UPDATE (R232), or a fill. -/
def State.portEnabled (s : State) (p : Nat) : Bool :=
  match s.ports[p]? with
  | some (.pending w) =>
      match decode w with
      | .ok i => !(decide (i = .update) && decide (s.life = .ready) && s.busy)
      | .error _ => true
  | some (.filling _ _) => true
  | some .idle => false
  | some .updating => false
  | some (.done _) => false
  | none => false

/-- The move's agent has an enabled step (R30 and the rules it names). -/
def State.enabled (s : State) (m : Move) : Bool :=
  match m with
  | .present p _ => decide (s.ports[p]? = some .idle)
  | .take p => (s.response p).isSome
  | .port p _ => s.portEnabled p
  | .engine =>
      match s.phase with
      | .idle => false
      | .encHead => true
      | .encPix _ => true
      | .encTail => true
      | .tx _ => false
  | .transportWord =>
      match s.phase with
      | .tx k => decide (k < s.txWords)
      | .idle => false
      | .encHead => false
      | .encPix _ => false
      | .encTail => false
  | .transportEnd ok =>
      match s.phase with
      | .tx k => !ok || decide (k = s.txWords)
      | .idle => false
      | .encHead => false
      | .encPix _ => false
      | .encTail => false
  | .reset => true

/-- A port that R354 lets be when a run is over. -/
def PortState.atRest : PortState → Bool
  | .idle => true
  | .done _ => true
  | .pending _ => false
  | .filling _ _ => false
  | .updating => false

/-- The run is over (R354): every port is idle or done, BUSY = 0 and PHASE = IDLE. -/
def State.runOver (s : State) : Bool :=
  s.ports.all PortState.atRest && !s.busy && decide (s.phase = .idle)

/-- The state with these moves of the environment next. -/
def State.withMoves (s : State) (ms : List Move) : State := { s with sched := ms }

/-- The capacities hold the strip: R48 item 3. -/
def State.capacityHolds (s : State) : Prop := s.leds ≤ s.params.maxLeds ∧ s.txWords ≤ s.params.txbufWords

/-- PIXEL holds exactly the colours `cs`, one a pixel, from entry 0 on. -/
def State.pixelsAre (s : State) (cs : List Color) : Prop :=
  cs.length = s.leds ∧ ∀ i, i < s.leds → s.pixel.read i = cs[i]?

/-- The six words of R195 written out: the nibbles of the three channels in the strip model's order (R44), high nibble
first, through the Timing Table. -/
def sixWords : StripModel → Color → List Symbol
  | .modelA, c => [lut (highNibble c.g), lut (lowNibble c.g), lut (highNibble c.r), lut (lowNibble c.r),
                   lut (highNibble c.b), lut (lowNibble c.b)]
  | .modelB, c => [lut (highNibble c.r), lut (lowNibble c.r), lut (highNibble c.g), lut (lowNibble c.g),
                   lut (highNibble c.b), lut (lowNibble c.b)]

/-- The moves of one update that nothing interrupts (R352): the port's, `L + 2` of the engine, `N` words and the
completion. -/
def State.updateMoves (s : State) (p : Nat) (tok ok : Bool) : List Move :=
  .port p tok :: (List.replicate (s.leds + 2) .engine ++
    (List.replicate s.txWords .transportWord ++ [.transportEnd ok]))

end Sys2Proof.Machine
end

