-- ==== Sys2Proof/Certificates/Slice0/Obligations.lean ====
section
/-!
DEFINITION. The statements for the provers, from the numbered rules of spec/. A docstring names the rule, and what of
it is the model's own where it is not the rule's.
-/

open Sys2Proof Sys2Proof.Machine

/-! ## Encoding -/

/-- R101, R106, R107: no operand bit is lost between the encoder and the decoder. -/
def Obligations.DecodeOfEncodeIsTheCommand : Prop :=
  ∀ i : Instr, decode (encode i) = .ok i

/-- R107, R109: every command has exactly one word, so no bit of a word that decodes is ignored. -/
def Obligations.EncodeOfDecodeIsTheWord : Prop :=
  ∀ (w : CmdWord) (i : Instr), decode w = .ok i → encode i = w

/-- R107: a word is a command iff the command's mask and match accept it; the numbers are the rule's. -/
def Obligations.CommandIffMaskAndMatch : Prop :=
  ∀ w : CmdWord,
    ((∃ m n, decode w = .ok (.init m n)) ↔ w &&& 0xFFFFFFFF0000FEFF#64 = 0x0000000000000001#64) ∧
    (decode w = .ok .teardown ↔ w &&& 0xFFFFFFFFFFFFFFFF#64 = 0x0000000000000002#64) ∧
    ((∃ i c, decode w = .ok (.setPixel i c)) ↔ w &&& 0xFF0000000000FFFF#64 = 0x0000000000000003#64) ∧
    ((∃ c, decode w = .ok (.fillAll c)) ↔ w &&& 0xFF000000FFFFFFFF#64 = 0x0000000000000004#64) ∧
    ((∃ i, decode w = .ok (.getPixel i)) ↔ w &&& 0xFFFFFFFF0000FFFF#64 = 0x0000000000000005#64) ∧
    (decode w = .ok .update ↔ w &&& 0xFFFFFFFFFFFFFFFF#64 = 0x0000000000000006#64) ∧
    ((∃ n, decode w = .ok (.lutRead n)) ↔ w &&& 0xFFFFFFFFFFF0FFFF#64 = 0x0000000000000007#64)

/-- R103: each operand of a decoded command is its field, unsigned and whole. -/
def Obligations.OperandsComeFromTheirFields : Prop :=
  ∀ w : CmdWord,
    (∀ m n, decode w = .ok (.init m n) → n = w.extractLsb' 16 16 ∧ (m = .modelB ↔ w.getLsbD 8 = true)) ∧
    (∀ i c, decode w = .ok (.setPixel i c) → i = w.extractLsb' 16 16 ∧
      c.r = w.extractLsb' 32 8 ∧ c.g = w.extractLsb' 40 8 ∧ c.b = w.extractLsb' 48 8) ∧
    (∀ c, decode w = .ok (.fillAll c) →
      c.r = w.extractLsb' 32 8 ∧ c.g = w.extractLsb' 40 8 ∧ c.b = w.extractLsb' 48 8) ∧
    (∀ i, decode w = .ok (.getPixel i) → i = w.extractLsb' 16 16) ∧
    (∀ n, decode w = .ok (.lutRead n) → n = w.extractLsb' 16 4)

/-- R111: a reserved OP is illegal, and so is a word whose OP names a command but whose row of R107 refuses it. The
two names are the model's (log entry 6). -/
def Obligations.ReservedEncodingsAreIllegal : Prop :=
  ∀ w : CmdWord,
    ((w.extractLsb' 0 4 = 0x0#4 ∨ 0x8#4 ≤ w.extractLsb' 0 4) → decode w = .error .reservedOp) ∧
    (0x1#4 ≤ w.extractLsb' 0 4 → w.extractLsb' 0 4 ≤ 0x7#4 → (∀ op : Op, w &&& op.row.mask ≠ op.row.pattern) →
      decode w = .error .mustBeZeroBitSet)

/-- Words written out in spec/30_encoding.md R124 and spec/95_test_vectors.md, one a command. -/
def Obligations.DecodeOfWrittenWords : Prop :=
  decode 0x0000000000020101#64 = .ok (.init .modelB 2) ∧
  decode 0x0000000000000002#64 = .ok .teardown ∧
  decode 0x0056341200000003#64 = .ok (.setPixel 0 { r := 0x12, g := 0x34, b := 0x56 }) ∧
  decode 0x0030201000000004#64 = .ok (.fillAll { r := 0x10, g := 0x20, b := 0x30 }) ∧
  decode 0x00000000FFFF0005#64 = .ok (.getPixel 65535) ∧
  decode 0x0000000000000006#64 = .ok .update ∧
  decode 0x0000000000090007#64 = .ok (.lutRead 9)

/-- R123, R124: a line whose operands are in range assembles to the word of the command with exactly the numbers
written, a pseudo-command to that of its expansion; one with an operand out of its field's range assembles to
nothing. -/
def Obligations.AssemblerNeverTruncates : Prop :=
  (∀ (m : StripModel) (n : Nat), n ≤ 65535 →
    ∃ (w : CmdWord) (count : BitVec 16), (AsmOp.init m n).assemble = some w ∧ decode w = .ok (.init m count) ∧
      count.toNat = n) ∧
  (∀ n r g b : Nat, n ≤ 65535 → r ≤ 255 → g ≤ 255 → b ≤ 255 →
    ∃ (w : CmdWord) (i : BitVec 16) (c : Color), (AsmOp.setPixel n r g b).assemble = some w ∧
      decode w = .ok (.setPixel i c) ∧ i.toNat = n ∧ c.r.toNat = r ∧ c.g.toNat = g ∧ c.b.toNat = b) ∧
  (∀ r g b : Nat, r ≤ 255 → g ≤ 255 → b ≤ 255 →
    ∃ (w : CmdWord) (c : Color), (AsmOp.fillAll r g b).assemble = some w ∧ decode w = .ok (.fillAll c) ∧
      c.r.toNat = r ∧ c.g.toNat = g ∧ c.b.toNat = b) ∧
  (∀ n : Nat, n ≤ 65535 →
    ∃ (w : CmdWord) (i : BitVec 16), (AsmOp.getPixel n).assemble = some w ∧ decode w = .ok (.getPixel i) ∧
      i.toNat = n) ∧
  (∀ n : Nat, n ≤ 15 →
    ∃ (w : CmdWord) (k : Nibble), (AsmOp.lutRead n).assemble = some w ∧ decode w = .ok (.lutRead k) ∧ k.toNat = n) ∧
  AsmOp.teardown.assemble = some 0x0000000000000002#64 ∧ AsmOp.update.assemble = some 0x0000000000000006#64 ∧
  AsmOp.fillBlack.assemble = (AsmOp.fillAll 0 0 0).assemble ∧
  (∀ n : Nat, (AsmOp.off n).assemble = (AsmOp.setPixel n 0 0 0).assemble) ∧
  (∀ (m : StripModel) (n : Nat), 65535 < n → (AsmOp.init m n).assemble = none) ∧
  (∀ n r g b : Nat, 65535 < n ∨ 255 < r ∨ 255 < g ∨ 255 < b → (AsmOp.setPixel n r g b).assemble = none) ∧
  (∀ r g b : Nat, 255 < r ∨ 255 < g ∨ 255 < b → (AsmOp.fillAll r g b).assemble = none) ∧
  (∀ n : Nat, 65535 < n → (AsmOp.getPixel n).assemble = none) ∧
  (∀ n : Nat, 15 < n → (AsmOp.lutRead n).assemble = none)

/-! ## A step, and the host's side of a port -/

/-- R121: a step of `PORT(p)` with a command pending runs that command, and adds nothing but the draws of the move. As
in every statement about one step, PHASE and the ports are inside the rules; outside them the step faults (log entry 7,
UnwrittenReadsFault). -/
def Obligations.StepRunsThePendingCommand : Prop :=
  ∀ (s : State) (p : Nat) (tok : Bool) (rest : List Move) (w : CmdWord) (i : Instr),
    s.rulesHold = true → s.sched = .port p tok :: rest → s.ports[p]? = some (.pending w) → decode w = .ok i →
    step s = exec i { s with sched := rest, draw := { port := p, tok := tok } }

/-- R111: a word that is no command is answered ILLEGAL_COMMAND and changes nothing else of the block. -/
def Obligations.IllegalCommandIsAnswered : Prop :=
  ∀ (s : State) (p : Nat) (tok : Bool) (rest : List Move) (w : CmdWord) (why : Illegal),
    s.rulesHold = true → s.sched = .port p tok :: rest → s.ports[p]? = some (.pending w) → decode w = .error why →
    step s = .next { s with
      sched := rest, draw := { port := p, tok := tok }, ports := s.ports.set p (.done 0x00000006#32) }

/-- R120, R122: a host presents any word on an idle port, and takes the response of a port that is done. -/
def Obligations.HostPresentsAndTakes : Prop :=
  ∀ (s : State) (p : Nat) (rest : List Move), s.rulesHold = true →
    (∀ cmd : CmdWord, s.sched = .present p cmd :: rest → s.ports[p]? = some .idle →
      step s = .next { s with sched := rest, ports := s.ports.set p (.pending cmd) }) ∧
    (∀ rsp : RspWord, s.sched = .take p :: rest → s.ports[p]? = some (.done rsp) →
      s.response p = some rsp ∧ step s = .next { s with sched := rest, ports := s.ports.set p .idle })

/-- Log entry 3, over R30: where the move's agent has no enabled step, the block is left as it is. -/
def Obligations.DisabledMoveLeavesTheBlock : Prop :=
  ∀ (s : State) (m : Move), s.Inv → s.enabled m = false →
    ∃ d : Draw, moveStep m s = .next (s.setDraw d)

/-! ## Reset -/

/-- R50, R340: the state after power-on, whatever the parameters. -/
def Obligations.PowerOnValues : Prop :=
  ∀ c : Params,
    (State.powerOn c).params = c ∧ (State.powerOn c).life = .uninit ∧ (State.powerOn c).model = .modelA ∧
    (State.powerOn c).ledCount = 0#16 ∧ (State.powerOn c).busy = false ∧ (State.powerOn c).owner = 0 ∧
    (State.powerOn c).phase = .idle ∧ (State.powerOn c).tcfg = false ∧
    (∀ i, (State.powerOn c).pixel.read i = none) ∧ (∀ k, (State.powerOn c).txbuf.read k = none) ∧
    (∀ p, p < c.nPorts → (State.powerOn c).ports[p]? = some .idle) ∧ (State.powerOn c).wire = [] ∧
    (State.powerOn c).resetWords = 3 ∧ (State.powerOn c).txWords = 4

/-- R341: reset, in any state, gives every element its reset value and extends WIRE by one event. -/
def Obligations.ResetFromAnyState : Prop :=
  ∀ (s : State) (rest : List Move), s.sched = .reset :: rest →
    ∃ t, step s = .next t ∧ t.life = .uninit ∧ t.model = .modelA ∧ t.ledCount = 0#16 ∧ t.busy = false ∧
      t.owner = 0 ∧ t.phase = .idle ∧ t.tcfg = false ∧ (∀ i, t.pixel.read i = none) ∧
      (∀ k, t.txbuf.read k = none) ∧ t.ports.length = s.params.nPorts ∧
      (∀ p, p < s.params.nPorts → t.ports[p]? = some .idle) ∧ t.wire = s.wire ++ [.reset] ∧
      t.params = s.params ∧ t.sched = rest ∧ t.draw = s.draw ∧ t.draws = s.draws

/-! ## The invariants -/

/-- The power-on state meets the invariants, for every legal choice of the parameters. -/
def Obligations.PowerOnMeetsTheInvariants : Prop :=
  ∀ c : Params, c.legal = true →
    (State.powerOn c).Inv ∧ (State.powerOn c).FrameInv [] ∧ (State.powerOn c).ResponsesLegal

/-- R48: every step of every agent keeps the invariants. -/
def Obligations.StepKeepsTheInvariant : Prop :=
  ∀ s t : State, s.Inv → step s = .next t → t.Inv

/-- R83, R84, R175, R195, R197, R242: under any interleaving, every step keeps TXBUF and the end of WIRE the work of
ONE encode pass, the one that has read the colours `cs`. These change only by the pass's own steps: `ENC_HEAD` starts
anew, and `ENC_PIX(i)` appends exactly the colour that `PIXEL[i]` held before it. -/
def Obligations.StepKeepsTheFrameInvariant : Prop :=
  ∀ (s t : State) (cs : List Color), s.Inv → s.FrameInv cs → step s = .next t →
    t.FrameInv (s.sampled cs) ∧
    (s.nextMove = .engine → s.phase = .encHead → s.sampled cs = []) ∧
    (∀ i, s.nextMove = .engine → s.phase = .encPix i →
      ∃ c, s.pixel.read i = some c ∧ s.sampled cs = cs ++ [c] ∧ cs.length = i) ∧
    ((s.nextMove ≠ .engine ∨ (s.phase ≠ .encHead ∧ ∀ i, s.phase ≠ .encPix i)) → s.sampled cs = cs)

/-- R102, R108: no step leaves a response with a status above 6, or with data beside an error. -/
def Obligations.StepKeepsResponsesLegal : Prop :=
  ∀ s t : State, s.ResponsesLegal → step s = .next t → t.ResponsesLegal

/-- R48, item by item, in every state a run reaches; `cs` are the colours that the current update's encode pass has
read (`State.sampled`). -/
def Obligations.ReachableStatesMeetTheRules : Prop :=
  ∀ (c : Params) (s : State) (cs : List Color), c.legal = true → Reachable c s cs →
    (s.life = .uninit → s.busy = false ∧ s.phase = .idle ∧ s.model = .modelA ∧ s.ledCount = 0#16 ∧ s.tcfg = false ∧
      ∀ p : Nat, s.ports[p]? ≠ some .updating ∧ ∀ c i, s.ports[p]? ≠ some (.filling c i)) ∧
    (s.busy = false ↔ s.phase = .idle) ∧ (s.busy = false ↔ ∀ p : Nat, s.ports[p]? ≠ some .updating) ∧
    (s.busy = true → ∀ p : Nat, s.ports[p]? = some .updating ↔ p = s.owner) ∧
    (s.life = .ready → s.leds ≤ c.maxLeds ∧ s.txWords ≤ c.txbufWords) ∧
    (s.life = .ready → ∀ i, i < s.leds → s.pixel.read i ≠ none) ∧
    (∀ k, s.phase = .tx k → cs.length = s.leds ∧
      ∀ j, j < s.txWords → s.txbuf.read j = (frame s.model cs)[j]? ∧ s.txbuf.read j ≠ none)

/-- R316: from a state that meets the invariants no step faults or is refused. -/
def Obligations.NoStepStops : Prop :=
  ∀ s : State, s.Inv → ∃ t, step s = .next t

/-- R71, R72, R316: a read of an unwritten entry faults, so it cannot yield a value. And where PHASE or a PORT is outside
R38 and R45, every step but reset faults, PHASE checked before the ports: R316 says that a model should fault on such a
value, not when nor at whose step. That each agent's step makes the check and reset does not, its order and its two
fault names are the model's choice (log entry 7). -/
def Obligations.UnwrittenReadsFault : Prop :=
  ∀ s : State,
    (s.rulesHold = true → s.life = .ready → s.leds ≤ s.params.maxLeds →
      (∀ i : BitVec 16, i.toNat < s.leds → s.pixel.read i.toNat = none →
        exec (.getPixel i) s = .fault .pixelUnwritten) ∧
      (∀ i, s.phase = .encPix i → s.pixel.read i = none → moveStep .engine s = .fault .pixelUnwritten) ∧
      (∀ k, s.phase = .tx k → k < s.txWords → s.txbuf.read k = none →
        moveStep .transportWord s = .fault .txbufUnwritten)) ∧
    (∀ m : Move, m ≠ .reset →
      ((s.phase = .idle ∧ s.busy = true) ∨ (s.phase ≠ .idle ∧ s.busy = false) ∨
        (∃ i, s.phase = .encPix i ∧ s.leds ≤ i) ∨ (∃ k, s.phase = .tx k ∧ s.txWords < k) →
        moveStep m s = .fault .phaseOutsideRules) ∧
      (s.phaseLegal = true →
        ((∃ (p : Nat) (c : Color) (i : Nat), s.ports[p]? = some (.filling c i) ∧ s.leds ≤ i) ∨
          (∃ p : Nat, s.ports[p]? = some .updating ∧ (s.busy = false ∨ s.owner ≠ p))) →
        moveStep m s = .fault .portOutsideRules))

/-- R354: the block and the transport have no step left and no port is working exactly when the run is over. -/
def Obligations.RunIsOverExactlyWhenNothingMoves : Prop :=
  ∀ s : State, s.Inv →
    (s.runOver = true ↔
      (∀ m : Move, m.ofBlock = true → s.enabled m = false) ∧
      ∀ (p : Nat) (q : PortState), s.ports[p]? = some q → q.atRest = true)

/-- R353, R354: until the run is over some agent of the block, or the transport, can move: no update is ever stuck. -/
def Obligations.NoDeadlock : Prop :=
  ∀ s : State, s.Inv → s.runOver = false → ∃ m : Move, m.ofBlock = true ∧ s.enabled m = true

/-! ## The Timing Table -/

/-- R141: the lane rule and the constant table it results in. -/
def Obligations.TimingTableByLanes : Prop :=
  (∀ (n : Nibble) (k : Nat), k < 4 →
    (lut n).extractLsb' (4 * k) 4 = if n.getLsbD (3 - k) then 0b0111#4 else 0b0001#4) ∧
  (List.range 16).map (fun n => lut (BitVec.ofNat 4 n)) =
    [0x1111#16, 0x7111#16, 0x1711#16, 0x7711#16, 0x1171#16, 0x7171#16, 0x1771#16, 0x7771#16,
     0x1117#16, 0x7117#16, 0x1717#16, 0x7717#16, 0x1177#16, 0x7177#16, 0x1777#16, 0x7777#16]

/-- R145: LUT_READ responds OK with the symbol in bits 31:16, in every state, and writes only its port. -/
def Obligations.LutReadAnswersTheSymbol : Prop :=
  ∀ (n : Nibble) (s : State),
    exec (.lutRead n) s = .next { s with ports := s.ports.set s.draw.port (.done (lut n ++ 0#16)) }

/-! ## The Pixel Store -/

/-- R160: SET_PIXEL in range replaces the one entry, responds OK and changes nothing else. -/
def Obligations.SetPixelReplacesOneEntry : Prop :=
  ∀ (index : BitVec 16) (c : Color) (s : State),
    s.life = .ready → index.toNat < s.leds → s.leds ≤ s.params.maxLeds →
    ∃ t, exec (.setPixel index c) s = .next t ∧ t.pixel.read index.toNat = some c ∧
      (∀ j, j ≠ index.toNat → t.pixel.read j = s.pixel.read j) ∧
      t = { s with pixel := t.pixel, ports := s.ports.set s.draw.port (.done 0x00000000#32) }

/-- R170: GET_PIXEL in range responds OK with the whole entry `{b, g, r, 0x0}` and changes only its port. -/
def Obligations.GetPixelAnswersTheColour : Prop :=
  ∀ (index : BitVec 16) (c : Color) (s : State),
    s.life = .ready → index.toNat < s.leds → s.leds ≤ s.params.maxLeds → s.pixel.read index.toNat = some c →
    exec (.getPixel index) s = .next { s with ports := s.ports.set s.draw.port (.done (c.b ++ c.g ++ c.r ++ 0#8)) }

/-- R165: FILL_ALL is accepted with next index 0, or completes at once where there is nothing to fill. -/
def Obligations.FillAllIsAccepted : Prop :=
  ∀ (c : Color) (s : State), s.life = .ready →
    (s.leds = 0 → exec (.fillAll c) s = .next { s with ports := s.ports.set s.draw.port (.done 0x00000000#32) }) ∧
    (0 < s.leds → exec (.fillAll c) s = .next { s with ports := s.ports.set s.draw.port (.filling c 0) })

/-- R166: a fill step writes the next entry, and responds OK after the last. -/
def Obligations.FillStepWritesOneEntry : Prop :=
  ∀ (s : State) (p : Nat) (tok : Bool) (rest : List Move) (c : Color) (i : Nat),
    s.rulesHold = true → s.sched = .port p tok :: rest → s.ports[p]? = some (.filling c i) →
    s.leds ≤ s.params.maxLeds →
    ∃ t, step s = .next t ∧ t.pixel.read i = some c ∧ (∀ j, j ≠ i → t.pixel.read j = s.pixel.read j) ∧
      t = { s with
        sched := rest, draw := { port := p, tok := tok }, pixel := t.pixel
        ports := s.ports.set p (if i + 1 = s.leds then .done 0x00000000#32 else .filling c (i + 1)) }

/-- R166, R352: `LED_COUNT` steps of its port take an accepted fill to its end, every entry in use set. -/
def Obligations.FillRunsToItsEnd : Prop :=
  ∀ (s : State) (p : Nat) (tok : Bool) (c : Color),
    s.rulesHold = true → s.ports[p]? = some (.filling c 0) → s.leds ≤ s.params.maxLeds →
    ∃ t, Host.Core.run Sys2Proof.core s.leds (s.withMoves (List.replicate s.leds (.port p tok))) = .next t ∧
      (∀ j, t.pixel.read j = if j < s.leds then some c else s.pixel.read j) ∧
      t = { s with
        sched := [], draw := { port := p, tok := tok }, pixel := t.pixel
        ports := s.ports.set p (.done 0x00000000#32) }

/-- R303 (first point), R160, R165, R170, R230: with no instance these commands give STATE_ERROR and change nothing
else. -/
def Obligations.NoInstanceIsStateError : Prop :=
  ∀ s : State, s.life = .uninit →
    (∀ index c, exec (.setPixel index c) s =
      .next { s with ports := s.ports.set s.draw.port (.done 0x00000005#32) }) ∧
    (∀ c, exec (.fillAll c) s = .next { s with ports := s.ports.set s.draw.port (.done 0x00000005#32) }) ∧
    (∀ index, exec (.getPixel index) s = .next { s with ports := s.ports.set s.draw.port (.done 0x00000005#32) }) ∧
    exec .update s = .next { s with ports := s.ports.set s.draw.port (.done 0x00000005#32) }

/-- R77, R160, R170: an index of `LED_COUNT` or more is refused with OUT_OF_RANGE and changes nothing else. -/
def Obligations.IndexPastTheStripIsOutOfRange : Prop :=
  ∀ (index : BitVec 16) (s : State), s.life = .ready → s.leds ≤ index.toNat →
    (∀ c, exec (.setPixel index c) s = .next { s with ports := s.ports.set s.draw.port (.done 0x00000001#32) }) ∧
    exec (.getPixel index) s = .next { s with ports := s.ports.set s.draw.port (.done 0x00000001#32) }

/-- R162: an entry takes a new colour only by a SET_PIXEL of it, by a fill step at it, or by INIT's clear. -/
def Obligations.PixelsChangeOnlyByTheirCommands : Prop :=
  ∀ (s t : State) (i : Nat) (c : Color),
    step s = .next t → t.pixel.read i = some c → s.pixel.read i ≠ some c →
    ∃ p tok, s.nextMove = .port p tok ∧
      ((∃ (w : CmdWord) (index : BitVec 16), s.ports[p]? = some (.pending w) ∧
          decode w = .ok (.setPixel index c) ∧ index.toNat = i) ∨
       s.ports[p]? = some (.filling c i) ∨
       (∃ (w : CmdWord) (m : StripModel) (n : BitVec 16), s.ports[p]? = some (.pending w) ∧
          decode w = .ok (.init m n) ∧ i < n.toNat ∧ c = { r := 0, g := 0, b := 0 } ∧ s.life = .uninit))

/-- R306: a command that reports an error in its step changes nothing but its own port. -/
def Obligations.FailedCommandChangesOnlyItsPort : Prop :=
  ∀ (i : Instr) (s t : State) (rsp : RspWord),
    exec i s = .next t → t.ports[s.draw.port]? = some (.done rsp) → rsp.extractLsb' 0 4 ≠ 0#4 →
    t = { s with ports := s.ports.set s.draw.port (.done rsp) }

/-- R307, R310: a command's step never touches another port. -/
def Obligations.CommandTouchesNoOtherPort : Prop :=
  ∀ (i : Instr) (s t : State) (q : Nat), exec i s = .next t → q ≠ s.draw.port → t.ports[q]? = s.ports[q]?

/-! ## The lifecycle -/

/-- R270: INIT with a strip that fits and a transport that configures opens the instance, every pixel black. -/
def Obligations.InitOpensTheInstance : Prop :=
  ∀ (m : StripModel) (count : BitVec 16) (s : State),
    s.life = .uninit → count.toNat ≤ s.params.maxLeds →
    6 * count.toNat + (if m = .modelA then 3 else 30) + 1 ≤ s.params.txbufWords → s.draw.tok = true →
    ∃ t, exec (.init m count) s = .next t ∧
      (∀ i, t.pixel.read i = if i < count.toNat then some { r := 0, g := 0, b := 0 } else s.pixel.read i) ∧
      t = { s with
        life := .ready, model := m, ledCount := count, tcfg := true, pixel := t.pixel
        ports := s.ports.set s.draw.port (.done 0x00000000#32) }

/-- R270, R271, R273, R304: INIT's three refusals, in their order; each changes only its port. -/
def Obligations.InitRefusalsInOrder : Prop :=
  ∀ (m : StripModel) (count : BitVec 16) (s : State),
    (s.life = .ready →
      exec (.init m count) s = .next { s with ports := s.ports.set s.draw.port (.done 0x00000005#32) }) ∧
    (s.life = .uninit → (s.params.maxLeds < count.toNat ∨
        s.params.txbufWords < 6 * count.toNat + (if m = .modelA then 3 else 30) + 1) →
      exec (.init m count) s = .next { s with ports := s.ports.set s.draw.port (.done 0x00000002#32) }) ∧
    (s.life = .uninit → count.toNat ≤ s.params.maxLeds →
        6 * count.toNat + (if m = .modelA then 3 else 30) + 1 ≤ s.params.txbufWords → s.draw.tok = false →
      exec (.init m count) s = .next { s with ports := s.ports.set s.draw.port (.done 0x00000003#32) })

/-- R275, R276: TEARDOWN with no update and no fill in flight releases everything, and writes nothing else. That OWNER
keeps the last owner is the model's choice (log entry 11): I17 lets it hold any value. -/
def Obligations.TeardownReleasesEverything : Prop :=
  ∀ s : State, s.life = .ready → s.busy = false → (∀ (q : Nat) (c : Color) (i : Nat), s.ports[q]? ≠ some (.filling c i)) →
    ∃ t, exec .teardown s = .next t ∧ (∀ i, t.pixel.read i = none) ∧ (∀ k, t.txbuf.read k = none) ∧
      t = { s with
        life := .uninit, tcfg := false, model := .modelA, ledCount := 0#16, pixel := t.pixel, txbuf := t.txbuf
        ports := s.ports.set s.draw.port (.done 0x00000000#32) }

/-- R275, R303 (third point): TEARDOWN with no instance, an update in flight or a fill in flight is STATE_ERROR. -/
def Obligations.TeardownIsRefused : Prop :=
  ∀ s : State, (s.life = .uninit ∨ s.busy = true ∨ ∃ (q : Nat) (c : Color) (i : Nat), s.ports[q]? = some (.filling c i)) →
    exec .teardown s = .next { s with ports := s.ports.set s.draw.port (.done 0x00000005#32) }

/-- R274: while the instance lives, no step writes MODEL or LED_COUNT. -/
def Obligations.ModelAndCountAreFixed : Prop :=
  ∀ s t : State, step s = .next t → s.life = .ready → t.life = .ready → t.model = s.model ∧ t.ledCount = s.ledCount

/-! ## The Transmit Gate -/

/-- R230, R231: an UPDATE that finds the gate free takes it, starts the engine and keeps its port, in one step. -/
def Obligations.UpdateTakesTheGate : Prop :=
  ∀ s : State, s.life = .ready → s.busy = false →
    exec .update s = .next { s with
      busy := true, owner := s.draw.port, phase := .encHead, ports := s.ports.set s.draw.port .updating }

/-- R232: an UPDATE that finds the gate taken is neither executed nor rejected: it waits, everything as it was. The rule
says that its port has no step; that a move of that port is used up and leaves the block as it is, is the model's choice
(log entry 3). -/
def Obligations.UpdateIsHeldWhileTheGateIsTaken : Prop :=
  ∀ (s : State) (p : Nat) (tok : Bool) (rest : List Move) (w : CmdWord),
    s.rulesHold = true → s.sched = .port p tok :: rest → s.ports[p]? = some (.pending w) → decode w = .ok .update →
    s.life = .ready → s.busy = true →
    step s = .next { s with sched := rest, draw := { port := p, tok := tok } }

/-- R231: the acceptance of an UPDATE is the only step that sets BUSY, and it sets OWNER, PHASE and PORT with it. -/
def Obligations.OnlyAnUpdateTakesTheGate : Prop :=
  ∀ s t : State, step s = .next t → s.busy = false → t.busy = true →
    ∃ (p : Nat) (tok : Bool) (w : CmdWord), s.nextMove = .port p tok ∧ s.ports[p]? = some (.pending w) ∧
      decode w = .ok .update ∧ s.life = .ready ∧ t.owner = p ∧ t.phase = .encHead ∧ t.ports[p]? = some .updating

/-- R240, R238: BUSY is cleared only by the transport's completion and by reset. That OWNER keeps its value then is the
model's choice (log entry 11): I17 lets it hold any value. -/
def Obligations.GateIsReleasedOnlyAtTheEnd : Prop :=
  ∀ s t : State, step s = .next t → s.busy = true → t.busy = false →
    s.nextMove = .reset ∨
    ∃ ok k, s.nextMove = .transportEnd ok ∧ s.phase = .tx k ∧ t.phase = .idle ∧
      t.wire = s.wire ++ [.frameEnd (if ok then .ok else .transmitError)] ∧ t.owner = s.owner

/-- R234, R235: an updating port waits until its own transmission ends, and is answered with the transport's status. -/
def Obligations.UpdatingPortWaitsForItsTransmission : Prop :=
  ∀ (s t : State) (p : Nat), s.Inv → s.ports[p]? = some .updating → step s = .next t →
    t.ports[p]? = some .updating ∨ s.nextMove = .reset ∨
    ∃ ok, s.nextMove = .transportEnd ok ∧ (ok = true → s.phase = .tx s.txWords) ∧
      t.ports[p]? = some (.done (if ok then 0x00000000#32 else 0x00000004#32))

/-! ## The Frame Encoder -/

/-- R191: the frame, its length and its words index by index. -/
def Obligations.FrameLayout : Prop :=
  ∀ (m : StripModel) (cs : List Color),
    (frame m cs).length = 6 * cs.length + (if m = .modelA then 3 else 30) + 1 ∧
    (frame m cs)[0]? = some 0x0000#16 ∧
    (∀ (i : Nat) (c : Color) (j : Nat), cs[i]? = some c → j < 3 →
      ∃ ch : Channel,
        ch = (if j = 2 then .blue else if (j = 0 ↔ m = .modelA) then .green else .red) ∧
        (frame m cs)[1 + 6 * i + 2 * j]? = some (lut ((ch.of c).extractLsb' 4 4)) ∧
        (frame m cs)[1 + 6 * i + 2 * j + 1]? = some (lut ((ch.of c).extractLsb' 0 4))) ∧
    (∀ k, k < (if m = .modelA then 3 else 30) → (frame m cs)[1 + 6 * cs.length + k]? = some 0x0000#16)

/-- R200: the frame has exactly `N = L * 6 + (RD + 1)` words: `6L + 4` for Model A, `6L + 31` for Model B; and 4 and
31 of them are zero words, whatever the colours (C1: the leading word and the reset gap). -/
def Obligations.FrameHasTheSizingFormulasLength : Prop :=
  ∀ cs : List Color,
    (frame .modelA cs).length = 6 * cs.length + 4 ∧ (frame .modelB cs).length = 6 * cs.length + 31 ∧
    (frame .modelA cs).count 0x0000#16 = 4 ∧ (frame .modelB cs).count 0x0000#16 = 31 ∧
    ∀ s : State, s.leds = cs.length → (frame s.model cs).length = s.txWords

/-- R194, R196: `ENC_HEAD` writes the leading zero word; `ENC_TAIL` writes the reset gap and hands the frame to the
transport with `bitLength = 16 * N`; neither writes another word of TXBUF. -/
def Obligations.EncHeadAndTailWriteTheZeroWords : Prop :=
  ∀ (s : State) (rest : List Move), s.rulesHold = true → s.sched = .engine :: rest → s.capacityHolds →
    (s.phase = .encHead →
      ∃ t, step s = .next t ∧ t.txbuf.read 0 = some 0x0000#16 ∧ (∀ k, k ≠ 0 → t.txbuf.read k = s.txbuf.read k) ∧
        t = { s with sched := rest, txbuf := t.txbuf, phase := if 0 < s.leds then .encPix 0 else .encTail }) ∧
    (s.phase = .encTail →
      ∃ t, step s = .next t ∧
        (∀ k, k < s.resetWords → t.txbuf.read (1 + 6 * s.leds + k) = some 0x0000#16) ∧
        (∀ k, k < 1 + 6 * s.leds ∨ s.txWords ≤ k → t.txbuf.read k = s.txbuf.read k) ∧
        t = { s with
          sched := rest, txbuf := t.txbuf, phase := .tx 0, wire := s.wire ++ [.frameStart (16 * s.txWords)] })

/-- R195: `ENC_PIX(i)` reads entry `i` and writes its six words, in the strip model's order, and nothing else. -/
def Obligations.EncPixWritesSixWords : Prop :=
  ∀ (s : State) (rest : List Move) (i : Nat) (c : Color),
    s.rulesHold = true → s.sched = .engine :: rest → s.phase = .encPix i → s.pixel.read i = some c →
    s.capacityHolds →
    ∃ t, step s = .next t ∧
      (∀ k, k < 6 → t.txbuf.read (1 + 6 * i + k) = (sixWords s.model c)[k]?) ∧
      (∀ k, k < 1 + 6 * i ∨ 7 + 6 * i ≤ k → t.txbuf.read k = s.txbuf.read k) ∧
      t = { s with sched := rest, txbuf := t.txbuf, phase := if i + 1 < s.leds then .encPix (i + 1) else .encTail }

/-- R190, R197: `L + 2` engine steps with no other step between overwrite TXBUF with the frame of the pixels and reach
`TX(0)`; no word past the frame is written (R193). StepKeepsTheFrameInvariant and ReachableStatesMeetTheRules say it of
any interleaving. -/
def Obligations.EncodePassWritesTheFrame : Prop :=
  ∀ (s : State) (cs : List Color), s.Inv → s.phase = .encHead → s.pixelsAre cs →
    ∃ t, Host.Core.run Sys2Proof.core (s.leds + 2) (s.withMoves (List.replicate (s.leds + 2) .engine)) = .next t ∧
      t.txbufHolds (frame s.model cs) ∧ (∀ k, s.txWords ≤ k → t.txbuf.read k = s.txbuf.read k) ∧
      t = { s with
        sched := [], txbuf := t.txbuf, phase := .tx 0, wire := s.wire ++ [.frameStart (16 * s.txWords)] }

/-! ## The transport -/

/-- R237: the transport takes word `k` and nothing else changes. -/
def Obligations.TransportTakesWordsInOrder : Prop :=
  ∀ (s : State) (rest : List Move) (k : Nat) (w : Symbol),
    s.rulesHold = true → s.sched = .transportWord :: rest → s.phase = .tx k → k < s.txWords →
    s.txbuf.read k = some w →
    step s = .next { s with sched := rest, wire := s.wire ++ [.word k w], phase := .tx (k + 1) }

/-- R238, R241: completion with OK after the last word, or with TRANSMIT_ERROR at any word, releases the gate and
answers the owner, and changes nothing else. Completion with OK while a word is left is not allowed: that such a move
is used up and leaves the block as it is, is the model's choice (log entry 3), and so is that OWNER keeps its value
(log entry 11). -/
def Obligations.TransmissionCompletes : Prop :=
  ∀ (s : State) (rest : List Move) (ok : Bool) (k : Nat),
    s.rulesHold = true → s.sched = .transportEnd ok :: rest → s.phase = .tx k →
    s.ports[s.owner]? = some .updating →
    ((ok = true → k = s.txWords) → step s = .next { s with
      sched := rest, wire := s.wire ++ [.frameEnd (if ok then .ok else .transmitError)], busy := false, phase := .idle
      ports := s.ports.set s.owner (.done (if ok then 0x00000000#32 else 0x00000004#32)) }) ∧
    (ok = true → k ≠ s.txWords → step s = .next { s with sched := rest })

/-- R237, R238, R241: `k` word steps and a completion send the words `0 .. k-1` of TXBUF, each once and in index
order; with OK that is the whole frame. That OWNER keeps its value is the model's choice (log entry 11). -/
def Obligations.TransmissionSendsEachWordOnceInOrder : Prop :=
  ∀ (s : State) (ws : List Symbol) (ok : Bool) (k : Nat),
    s.Inv → s.phase = .tx 0 → ws.length = s.txWords → s.txbufHolds ws → k ≤ s.txWords → (ok = true → k = s.txWords) →
    Host.Core.run Sys2Proof.core (k + 1)
        (s.withMoves (List.replicate k .transportWord ++ [.transportEnd ok])) =
      .next { s with
        sched := [], busy := false, phase := .idle
        wire := s.wire ++ wordEvents 0 (ws.take k) ++ [.frameEnd (if ok then .ok else .transmitError)]
        ports := s.ports.set s.owner (.done (if ok then 0x00000000#32 else 0x00000004#32)) }

/-- R230, R352: an UPDATE that nothing interrupts sends the frame of the pixels and is answered OK, in one acceptance,
`L + 2` engine steps, `N` word steps and one completion. That OWNER is still `p` when the gate is free is the model's
choice (log entry 11). -/
def Obligations.UpdateSendsTheFrameOfThePixels : Prop :=
  ∀ (s : State) (p : Nat) (tok : Bool) (w : CmdWord) (cs : List Color),
    s.Inv → s.life = .ready → s.busy = false → s.ports[p]? = some (.pending w) → decode w = .ok .update →
    s.pixelsAre cs →
    ∃ t, Host.Core.run Sys2Proof.core (s.updateMoves p tok true).length
          (s.withMoves (s.updateMoves p tok true)) = .next t ∧
      t.wire = s.wire ++ .frameStart (16 * s.txWords) :: wordEvents 0 (frame s.model cs) ++ [.frameEnd .ok] ∧
      t.ports = s.ports.set p (.done 0x00000000#32) ∧ t.busy = false ∧ t.phase = .idle ∧ t.owner = p ∧
      t.txbufHolds (frame s.model cs) ∧ t.pixel = s.pixel ∧ t.life = s.life ∧ t.model = s.model ∧
      t.ledCount = s.ledCount ∧ t.tcfg = s.tcfg

/-- R42: only the engine writes a symbol into TXBUF; TEARDOWN and reset only make words unwritten. -/
def Obligations.OnlyTheEngineWritesTxbuf : Prop :=
  ∀ (s t : State) (k : Nat) (w : Symbol), step s = .next t → t.txbuf.read k = some w → s.txbuf.read k ≠ some w →
    s.nextMove = .engine ∧ s.busy = true ∧ s.phase ≠ .idle ∧ ∀ j, s.phase ≠ .tx j

/-- R242, R175: in every run, whatever its interleaving, a frame that ends with OK is on WIRE whole: the frame of the
colours `cs` that its own encode pass has read, each `PIXEL[i]` as it was at the `ENC_PIX(i)` step (`State.sampled`), so
never a mix of two passes. -/
def Obligations.CompletedFrameIsOneEncodePass : Prop :=
  ∀ (c : Params) (s t : State) (cs : List Color), c.legal = true → Reachable c s cs →
    s.busy = true → s.nextMove = .transportEnd true → step s = .next t → t.busy = false →
    cs.length = s.leds ∧ ∃ earlier : List WireEvent,
      t.wire = earlier ++ .frameStart (16 * s.txWords) :: wordEvents 0 (frame s.model cs) ++ [.frameEnd .ok]

/-- R47: WIRE is append-only, one event a step at most. -/
def Obligations.WireIsAppendOnly : Prop :=
  ∀ s t : State, step s = .next t → ∃ es : List WireEvent, es.length ≤ 1 ∧ t.wire = s.wire ++ es

/-! ## The line -/

/-- R142, R143: symbols sent one after another are the pulses of their nibbles, four a nibble, most significant bit
first. -/
def Obligations.SymbolsAreTheirNibblesPulses : Prop :=
  ∀ ns : List Nibble, lineOf (ns.map lut) = ns.flatMap fun n =>
    (if n.getLsbD 3 then [true, true, true, false] else [true, false, false, false]) ++
    (if n.getLsbD 2 then [true, true, true, false] else [true, false, false, false]) ++
    (if n.getLsbD 1 then [true, true, true, false] else [true, false, false, false]) ++
    (if n.getLsbD 0 then [true, true, true, false] else [true, false, false, false])

/-- R203: a pixel goes onto the line as its 24 protocol bits, each channel bit 7 first, in the model's order. -/
def Obligations.PixelGoesOutBitSevenFirst : Prop :=
  ∀ (m : StripModel) (c : Color),
    lineOf (pixelSymbols m c) = (pixelBits m c).flatMap pulse ∧ (pixelBits m c).length = 24

/-- R75, R245: slot `16k + b` of the line holds bit `b` of word `k`, and the byte view, two bytes a word, sends exactly
the slots of the word view. -/
def Obligations.WordAndByteViewsSendTheSameSlots : Prop :=
  ∀ ws : List Symbol,
    (lineOf ws).length = 16 * ws.length ∧
    (∀ (k : Nat) (w : Symbol) (b : Nat), ws[k]? = some w → b < 16 → (lineOf ws)[16 * k + b]? = some (w.getLsbD b)) ∧
    (byteView ws).length = 2 * ws.length ∧ ((byteView ws).flatMap fun y => slots y) = lineOf ws

/-- R201, R202, R246: after the last high slot of a frame with a pixel the line is low for at least `16 * RD + 1`
slots, 49 for Model A and 481 for Model B; and up to the next frame's first high slot for at least 65 and 497, plus the
transport's idle time. The line carries exactly the frames, and is low before the first, between two and after the last;
the low level at rest is the transport's duty (R246, log entry 8). -/
def Obligations.LowRunOfTheResetGap : Prop :=
  (∀ (cs cs' : List Color) (idle : Nat), cs ≠ [] →
    49 ≤ trailingLow (lineOf (frame .modelA cs)) ∧ 481 ≤ trailingLow (lineOf (frame .modelB cs)) ∧
    65 + idle ≤ trailingLow (lineOf (frame .modelA cs) ++ List.replicate idle false) +
      leadingLow (lineOf (frame .modelA cs')) ∧
    497 + idle ≤ trailingLow (lineOf (frame .modelB cs) ++ List.replicate idle false) +
      leadingLow (lineOf (frame .modelB cs'))) ∧
  (∀ rest : Nat → Nat, lineFrom rest .idle 0 [] = List.replicate (rest 0) false) ∧
  (∀ (rest : Nat → Nat) (ws ws' : List Symbol) (b b' : Nat) (st st' : Status),
    lineFrom rest .idle 0 (.frameStart b :: wordEvents 0 ws ++ .frameEnd st ::
        .frameStart b' :: wordEvents 0 ws' ++ [.frameEnd st']) =
      List.replicate (rest 0) false ++ lineOf ws ++ List.replicate (rest 1) false ++ lineOf ws' ++
        List.replicate (rest 2) false)
end

