-- ==== Sys2Proof/Laws/Memory.lean ====
section
/-!
SUPPORT. The laws of the storage arrays: what a read answers after each operation, and that each operation keeps the
canonical form. Other files cite these and do not unfold the operations.
-/

namespace Sys2Proof.Machine

variable {α : Type}

@[simp] theorem Memory.read_nil (k : Nat) : Memory.read ([] : Memory α) k = none := rfl

@[simp] theorem Memory.wf_nil : Memory.wf ([] : Memory α) = true := rfl

theorem Memory.read_cons (a : Nat) (x : α) (m : Memory α) (k : Nat) :
    Memory.read ((a, x) :: m) k = if k = a then some x else Memory.read m k := rfl

/-- A read of the entry a write went to gives the value written. -/
@[simp] theorem Memory.read_write_same (m : Memory α) (k : Nat) (v : α) : (m.write k v).read k = some v := by
  induction m with
  | nil => simp [Memory.write, Memory.read]
  | cons e m ih =>
    obtain ⟨a, x⟩ := e
    simp only [Memory.write]
    split_ifs with h1 h2
    · simp [Memory.read]
    · simp [Memory.read]
    · simp [Memory.read, h2, ih]

/-- A write leaves every other entry alone. -/
theorem Memory.read_write_other (m : Memory α) (k j : Nat) (v : α) (h : j ≠ k) : (m.write k v).read j = m.read j := by
  induction m with
  | nil => simp [Memory.write, Memory.read, h]
  | cons e m ih =>
    obtain ⟨a, x⟩ := e
    simp only [Memory.write]
    split_ifs with h1 h2
    · simp [Memory.read, h]
    · subst h2; simp [Memory.read, h]
    · simp [Memory.read, ih]

/-- Both laws at once. -/
theorem Memory.read_write (m : Memory α) (k j : Nat) (v : α) :
    (m.write k v).read j = if j = k then some v else m.read j := by
  split_ifs with h
  · subst h; simp
  · exact Memory.read_write_other m k j v h

/-- The canonical form, as a relation between any two entries. -/
theorem Memory.wf_iff_pairwise (m : Memory α) : m.wf = true ↔ m.Pairwise (fun x y => x.1 < y.1) := by
  induction m with
  | nil => simp
  | cons e m ih =>
    cases m with
    | nil => simp [Memory.wf]
    | cons f m =>
      obtain ⟨a, x⟩ := e
      obtain ⟨b, y⟩ := f
      simp only [Memory.wf, Bool.and_eq_true, decide_eq_true_eq, ih, List.pairwise_cons, List.mem_cons]
      constructor
      · rintro ⟨hab, hb, hm⟩
        refine ⟨?_, hb, hm⟩
        rintro z (rfl | hz)
        · exact hab
        · exact Nat.lt_trans hab (hb z hz)
      · rintro ⟨ha, hb, hm⟩
        exact ⟨ha _ (Or.inl rfl), hb, hm⟩

/-- Every entry of a written array is the entry written or one that was there. -/
theorem Memory.mem_write (m : Memory α) (k : Nat) (v : α) (e : Nat × α) (h : e ∈ m.write k v) :
    e = (k, v) ∨ e ∈ m := by
  induction m with
  | nil => simpa [Memory.write] using h
  | cons f m ih =>
    obtain ⟨a, x⟩ := f
    simp only [Memory.write] at h
    split_ifs at h with h1 h2
    · simpa using h
    · rcases List.mem_cons.mp h with h | h
      · exact Or.inl h
      · exact Or.inr (List.mem_cons_of_mem _ h)
    · rcases List.mem_cons.mp h with h | h
      · exact Or.inr (h ▸ List.mem_cons_self)
      · exact (ih h).imp id (List.mem_cons_of_mem _)

/-- A write keeps the canonical form. -/
theorem Memory.wf_write (m : Memory α) (k : Nat) (v : α) (h : m.wf = true) : (m.write k v).wf = true := by
  rw [Memory.wf_iff_pairwise] at h ⊢
  induction m with
  | nil => simp [Memory.write]
  | cons e m ih =>
    obtain ⟨a, x⟩ := e
    obtain ⟨ha, hm⟩ := List.pairwise_cons.mp h
    simp only [Memory.write]
    split_ifs with h1 h2
    · refine List.pairwise_cons.mpr ⟨?_, h⟩
      intro z hz
      rcases List.mem_cons.mp hz with rfl | hz
      · exact h1
      · exact Nat.lt_trans h1 (ha z hz)
    · subst h2; exact List.pairwise_cons.mpr ⟨ha, hm⟩
    · refine List.pairwise_cons.mpr ⟨?_, ih hm⟩
      intro z hz
      rcases Memory.mem_write m k v z hz with rfl | hz
      · simp only; omega
      · exact ha z hz

/-- A read after consecutive writes: the value written where one went, what was there elsewhere. -/
theorem Memory.read_writeAll (m : Memory α) (k : Nat) (vs : List α) (j : Nat) :
    (m.writeAll k vs).read j = if k ≤ j ∧ j < k + vs.length then vs[j - k]? else m.read j := by
  induction vs generalizing m k with
  | nil =>
    simp [Memory.writeAll]
  | cons v vs ih =>
    simp only [Memory.writeAll, ih, List.length_cons]
    by_cases hj : j = k
    · subst hj
      simp
    · by_cases hr : k + 1 ≤ j ∧ j < k + 1 + vs.length
      · have h2 : k ≤ j ∧ j < k + (vs.length + 1) := by omega
        rw [if_pos hr, if_pos h2]
        have : j - k = (j - (k + 1)) + 1 := by omega
        rw [this, List.getElem?_cons_succ]
      · have h2 : ¬ (k ≤ j ∧ j < k + (vs.length + 1)) := by omega
        rw [if_neg hr, if_neg h2, Memory.read_write_other _ _ _ _ hj]

/-- Consecutive writes keep the canonical form. -/
theorem Memory.wf_writeAll (m : Memory α) (k : Nat) (vs : List α) (h : m.wf = true) :
    (m.writeAll k vs).wf = true := by
  induction vs generalizing m k with
  | nil => exact h
  | cons v vs ih => exact ih _ _ (Memory.wf_write m k v h)

theorem Memory.read_append (l m : Memory α) (j : Nat) :
    Memory.read (l ++ m) j = (Memory.read l j).or (Memory.read m j) := by
  induction l with
  | nil => simp
  | cons e l ih =>
    obtain ⟨a, x⟩ := e
    rw [List.cons_append, Memory.read_cons, Memory.read_cons, ih]
    split_ifs <;> simp

theorem Memory.read_filter_from (m : Memory α) (n j : Nat) :
    Memory.read (m.filter (fun e => n ≤ e.1)) j = if n ≤ j then Memory.read m j else none := by
  induction m with
  | nil => simp
  | cons e m ih =>
    obtain ⟨a, x⟩ := e
    simp only [List.filter_cons, Memory.read_cons]
    by_cases ha : n ≤ a <;> by_cases hj : j = a
    · subst hj; simp [ha, Memory.read_cons]
    · simp [ha, hj, Memory.read_cons, ih]
    · subst hj; simp [ha, ih]
    · simp [ha, hj, ih]

theorem Memory.read_map_range (n j : Nat) (v : α) :
    Memory.read ((List.range n).map (fun i => (i, v))) j = if j < n then some v else none := by
  induction n with
  | zero => simp
  | succ n ih =>
    rw [List.range_succ, List.map_append, Memory.read_append, ih]
    simp only [List.map_cons, List.map_nil, Memory.read_cons, Memory.read_nil]
    by_cases h : j < n
    · simp [h, Nat.lt_succ_of_lt h]
    · by_cases h2 : j = n
      · simp [h2]
      · simp [h, h2, show ¬ j < n + 1 by omega]

/-- A read after the first `n` entries were set to `v`. -/
theorem Memory.read_fillBelow (m : Memory α) (n j : Nat) (v : α) :
    (m.fillBelow n v).read j = if j < n then some v else m.read j := by
  unfold Memory.fillBelow
  rw [Memory.read_append, Memory.read_map_range, Memory.read_filter_from]
  by_cases h : j < n
  · simp [h]
  · simp [h, Nat.le_of_not_lt h]

/-- Setting the first `n` entries keeps the canonical form. -/
theorem Memory.wf_fillBelow (m : Memory α) (n : Nat) (v : α) (h : m.wf = true) : (m.fillBelow n v).wf = true := by
  rw [Memory.wf_iff_pairwise] at h ⊢
  unfold Memory.fillBelow
  refine List.pairwise_append.mpr ⟨?_, h.filter _, ?_⟩
  · rw [List.pairwise_map]
    exact List.pairwise_lt_range
  · intro a ha b hb
    obtain ⟨i, hi, rfl⟩ := List.mem_map.mp ha
    have h1 := List.mem_range.mp hi
    have h2 := (List.mem_filter.mp hb).2
    simp only [decide_eq_true_eq] at h2
    simp only
    omega

end Sys2Proof.Machine
end

