-- ==== Sys2Proof/Laws/State.lean ====
section
/-!
SUPPORT. One lemma per state element per named update, true by unfolding, so that no later proof unfolds a record
update; what the updates leave of the derived values; and the laws of a port and of a response word.
-/

namespace Sys2Proof.Machine

section Updates

variable (s : State) (p : Nat) (q : PortState) (ph : Phase) (e : WireEvent) (d : Draw)
  (mp : Memory Color) (mt : Memory Symbol) (m : StripModel) (count : BitVec 16)

@[simp] theorem State.setPort_params : (s.setPort p q).params = s.params := rfl
@[simp] theorem State.setPort_life : (s.setPort p q).life = s.life := rfl
@[simp] theorem State.setPort_model : (s.setPort p q).model = s.model := rfl
@[simp] theorem State.setPort_ledCount : (s.setPort p q).ledCount = s.ledCount := rfl
@[simp] theorem State.setPort_busy : (s.setPort p q).busy = s.busy := rfl
@[simp] theorem State.setPort_owner : (s.setPort p q).owner = s.owner := rfl
@[simp] theorem State.setPort_phase : (s.setPort p q).phase = s.phase := rfl
@[simp] theorem State.setPort_tcfg : (s.setPort p q).tcfg = s.tcfg := rfl
@[simp] theorem State.setPort_pixel : (s.setPort p q).pixel = s.pixel := rfl
@[simp] theorem State.setPort_txbuf : (s.setPort p q).txbuf = s.txbuf := rfl
@[simp] theorem State.setPort_ports : (s.setPort p q).ports = s.ports.set p q := rfl
@[simp] theorem State.setPort_wire : (s.setPort p q).wire = s.wire := rfl
@[simp] theorem State.setPort_draw : (s.setPort p q).draw = s.draw := rfl
@[simp] theorem State.setPort_sched : (s.setPort p q).sched = s.sched := rfl
@[simp] theorem State.setPort_draws : (s.setPort p q).draws = s.draws := rfl
@[simp] theorem State.setPort_leds : (s.setPort p q).leds = s.leds := rfl
@[simp] theorem State.setPort_txWords : (s.setPort p q).txWords = s.txWords := rfl
@[simp] theorem State.setPort_resetWords : (s.setPort p q).resetWords = s.resetWords := rfl

@[simp] theorem State.setPhase_params : (s.setPhase ph).params = s.params := rfl
@[simp] theorem State.setPhase_life : (s.setPhase ph).life = s.life := rfl
@[simp] theorem State.setPhase_model : (s.setPhase ph).model = s.model := rfl
@[simp] theorem State.setPhase_ledCount : (s.setPhase ph).ledCount = s.ledCount := rfl
@[simp] theorem State.setPhase_busy : (s.setPhase ph).busy = s.busy := rfl
@[simp] theorem State.setPhase_owner : (s.setPhase ph).owner = s.owner := rfl
@[simp] theorem State.setPhase_phase : (s.setPhase ph).phase = ph := rfl
@[simp] theorem State.setPhase_tcfg : (s.setPhase ph).tcfg = s.tcfg := rfl
@[simp] theorem State.setPhase_pixel : (s.setPhase ph).pixel = s.pixel := rfl
@[simp] theorem State.setPhase_txbuf : (s.setPhase ph).txbuf = s.txbuf := rfl
@[simp] theorem State.setPhase_ports : (s.setPhase ph).ports = s.ports := rfl
@[simp] theorem State.setPhase_wire : (s.setPhase ph).wire = s.wire := rfl
@[simp] theorem State.setPhase_draw : (s.setPhase ph).draw = s.draw := rfl
@[simp] theorem State.setPhase_sched : (s.setPhase ph).sched = s.sched := rfl
@[simp] theorem State.setPhase_draws : (s.setPhase ph).draws = s.draws := rfl
@[simp] theorem State.setPhase_leds : (s.setPhase ph).leds = s.leds := rfl
@[simp] theorem State.setPhase_txWords : (s.setPhase ph).txWords = s.txWords := rfl
@[simp] theorem State.setPhase_resetWords : (s.setPhase ph).resetWords = s.resetWords := rfl

@[simp] theorem State.emit_params : (s.emit e).params = s.params := rfl
@[simp] theorem State.emit_life : (s.emit e).life = s.life := rfl
@[simp] theorem State.emit_model : (s.emit e).model = s.model := rfl
@[simp] theorem State.emit_ledCount : (s.emit e).ledCount = s.ledCount := rfl
@[simp] theorem State.emit_busy : (s.emit e).busy = s.busy := rfl
@[simp] theorem State.emit_owner : (s.emit e).owner = s.owner := rfl
@[simp] theorem State.emit_phase : (s.emit e).phase = s.phase := rfl
@[simp] theorem State.emit_tcfg : (s.emit e).tcfg = s.tcfg := rfl
@[simp] theorem State.emit_pixel : (s.emit e).pixel = s.pixel := rfl
@[simp] theorem State.emit_txbuf : (s.emit e).txbuf = s.txbuf := rfl
@[simp] theorem State.emit_ports : (s.emit e).ports = s.ports := rfl
@[simp] theorem State.emit_wire : (s.emit e).wire = s.wire ++ [e] := rfl
@[simp] theorem State.emit_draw : (s.emit e).draw = s.draw := rfl
@[simp] theorem State.emit_sched : (s.emit e).sched = s.sched := rfl
@[simp] theorem State.emit_draws : (s.emit e).draws = s.draws := rfl
@[simp] theorem State.emit_leds : (s.emit e).leds = s.leds := rfl
@[simp] theorem State.emit_txWords : (s.emit e).txWords = s.txWords := rfl
@[simp] theorem State.emit_resetWords : (s.emit e).resetWords = s.resetWords := rfl

@[simp] theorem State.setPixels_params : (s.setPixels mp).params = s.params := rfl
@[simp] theorem State.setPixels_life : (s.setPixels mp).life = s.life := rfl
@[simp] theorem State.setPixels_model : (s.setPixels mp).model = s.model := rfl
@[simp] theorem State.setPixels_ledCount : (s.setPixels mp).ledCount = s.ledCount := rfl
@[simp] theorem State.setPixels_busy : (s.setPixels mp).busy = s.busy := rfl
@[simp] theorem State.setPixels_owner : (s.setPixels mp).owner = s.owner := rfl
@[simp] theorem State.setPixels_phase : (s.setPixels mp).phase = s.phase := rfl
@[simp] theorem State.setPixels_tcfg : (s.setPixels mp).tcfg = s.tcfg := rfl
@[simp] theorem State.setPixels_pixel : (s.setPixels mp).pixel = mp := rfl
@[simp] theorem State.setPixels_txbuf : (s.setPixels mp).txbuf = s.txbuf := rfl
@[simp] theorem State.setPixels_ports : (s.setPixels mp).ports = s.ports := rfl
@[simp] theorem State.setPixels_wire : (s.setPixels mp).wire = s.wire := rfl
@[simp] theorem State.setPixels_draw : (s.setPixels mp).draw = s.draw := rfl
@[simp] theorem State.setPixels_sched : (s.setPixels mp).sched = s.sched := rfl
@[simp] theorem State.setPixels_draws : (s.setPixels mp).draws = s.draws := rfl
@[simp] theorem State.setPixels_leds : (s.setPixels mp).leds = s.leds := rfl
@[simp] theorem State.setPixels_txWords : (s.setPixels mp).txWords = s.txWords := rfl
@[simp] theorem State.setPixels_resetWords : (s.setPixels mp).resetWords = s.resetWords := rfl

@[simp] theorem State.setTxbuf_params : (s.setTxbuf mt).params = s.params := rfl
@[simp] theorem State.setTxbuf_life : (s.setTxbuf mt).life = s.life := rfl
@[simp] theorem State.setTxbuf_model : (s.setTxbuf mt).model = s.model := rfl
@[simp] theorem State.setTxbuf_ledCount : (s.setTxbuf mt).ledCount = s.ledCount := rfl
@[simp] theorem State.setTxbuf_busy : (s.setTxbuf mt).busy = s.busy := rfl
@[simp] theorem State.setTxbuf_owner : (s.setTxbuf mt).owner = s.owner := rfl
@[simp] theorem State.setTxbuf_phase : (s.setTxbuf mt).phase = s.phase := rfl
@[simp] theorem State.setTxbuf_tcfg : (s.setTxbuf mt).tcfg = s.tcfg := rfl
@[simp] theorem State.setTxbuf_pixel : (s.setTxbuf mt).pixel = s.pixel := rfl
@[simp] theorem State.setTxbuf_txbuf : (s.setTxbuf mt).txbuf = mt := rfl
@[simp] theorem State.setTxbuf_ports : (s.setTxbuf mt).ports = s.ports := rfl
@[simp] theorem State.setTxbuf_wire : (s.setTxbuf mt).wire = s.wire := rfl
@[simp] theorem State.setTxbuf_draw : (s.setTxbuf mt).draw = s.draw := rfl
@[simp] theorem State.setTxbuf_sched : (s.setTxbuf mt).sched = s.sched := rfl
@[simp] theorem State.setTxbuf_draws : (s.setTxbuf mt).draws = s.draws := rfl
@[simp] theorem State.setTxbuf_leds : (s.setTxbuf mt).leds = s.leds := rfl
@[simp] theorem State.setTxbuf_txWords : (s.setTxbuf mt).txWords = s.txWords := rfl
@[simp] theorem State.setTxbuf_resetWords : (s.setTxbuf mt).resetWords = s.resetWords := rfl

@[simp] theorem State.takeGate_params : (s.takeGate p).params = s.params := rfl
@[simp] theorem State.takeGate_life : (s.takeGate p).life = s.life := rfl
@[simp] theorem State.takeGate_model : (s.takeGate p).model = s.model := rfl
@[simp] theorem State.takeGate_ledCount : (s.takeGate p).ledCount = s.ledCount := rfl
@[simp] theorem State.takeGate_busy : (s.takeGate p).busy = true := rfl
@[simp] theorem State.takeGate_owner : (s.takeGate p).owner = p := rfl
@[simp] theorem State.takeGate_phase : (s.takeGate p).phase = s.phase := rfl
@[simp] theorem State.takeGate_tcfg : (s.takeGate p).tcfg = s.tcfg := rfl
@[simp] theorem State.takeGate_pixel : (s.takeGate p).pixel = s.pixel := rfl
@[simp] theorem State.takeGate_txbuf : (s.takeGate p).txbuf = s.txbuf := rfl
@[simp] theorem State.takeGate_ports : (s.takeGate p).ports = s.ports := rfl
@[simp] theorem State.takeGate_wire : (s.takeGate p).wire = s.wire := rfl
@[simp] theorem State.takeGate_draw : (s.takeGate p).draw = s.draw := rfl
@[simp] theorem State.takeGate_sched : (s.takeGate p).sched = s.sched := rfl
@[simp] theorem State.takeGate_draws : (s.takeGate p).draws = s.draws := rfl
@[simp] theorem State.takeGate_leds : (s.takeGate p).leds = s.leds := rfl
@[simp] theorem State.takeGate_txWords : (s.takeGate p).txWords = s.txWords := rfl
@[simp] theorem State.takeGate_resetWords : (s.takeGate p).resetWords = s.resetWords := rfl

@[simp] theorem State.releaseGate_params : s.releaseGate.params = s.params := rfl
@[simp] theorem State.releaseGate_life : s.releaseGate.life = s.life := rfl
@[simp] theorem State.releaseGate_model : s.releaseGate.model = s.model := rfl
@[simp] theorem State.releaseGate_ledCount : s.releaseGate.ledCount = s.ledCount := rfl
@[simp] theorem State.releaseGate_busy : s.releaseGate.busy = false := rfl
@[simp] theorem State.releaseGate_owner : s.releaseGate.owner = s.owner := rfl
@[simp] theorem State.releaseGate_phase : s.releaseGate.phase = s.phase := rfl
@[simp] theorem State.releaseGate_tcfg : s.releaseGate.tcfg = s.tcfg := rfl
@[simp] theorem State.releaseGate_pixel : s.releaseGate.pixel = s.pixel := rfl
@[simp] theorem State.releaseGate_txbuf : s.releaseGate.txbuf = s.txbuf := rfl
@[simp] theorem State.releaseGate_ports : s.releaseGate.ports = s.ports := rfl
@[simp] theorem State.releaseGate_wire : s.releaseGate.wire = s.wire := rfl
@[simp] theorem State.releaseGate_draw : s.releaseGate.draw = s.draw := rfl
@[simp] theorem State.releaseGate_sched : s.releaseGate.sched = s.sched := rfl
@[simp] theorem State.releaseGate_draws : s.releaseGate.draws = s.draws := rfl
@[simp] theorem State.releaseGate_leds : s.releaseGate.leds = s.leds := rfl
@[simp] theorem State.releaseGate_txWords : s.releaseGate.txWords = s.txWords := rfl
@[simp] theorem State.releaseGate_resetWords : s.releaseGate.resetWords = s.resetWords := rfl

@[simp] theorem State.setDraw_params : (s.setDraw d).params = s.params := rfl
@[simp] theorem State.setDraw_life : (s.setDraw d).life = s.life := rfl
@[simp] theorem State.setDraw_model : (s.setDraw d).model = s.model := rfl
@[simp] theorem State.setDraw_ledCount : (s.setDraw d).ledCount = s.ledCount := rfl
@[simp] theorem State.setDraw_busy : (s.setDraw d).busy = s.busy := rfl
@[simp] theorem State.setDraw_owner : (s.setDraw d).owner = s.owner := rfl
@[simp] theorem State.setDraw_phase : (s.setDraw d).phase = s.phase := rfl
@[simp] theorem State.setDraw_tcfg : (s.setDraw d).tcfg = s.tcfg := rfl
@[simp] theorem State.setDraw_pixel : (s.setDraw d).pixel = s.pixel := rfl
@[simp] theorem State.setDraw_txbuf : (s.setDraw d).txbuf = s.txbuf := rfl
@[simp] theorem State.setDraw_ports : (s.setDraw d).ports = s.ports := rfl
@[simp] theorem State.setDraw_wire : (s.setDraw d).wire = s.wire := rfl
@[simp] theorem State.setDraw_draw : (s.setDraw d).draw = d := rfl
@[simp] theorem State.setDraw_sched : (s.setDraw d).sched = s.sched := rfl
@[simp] theorem State.setDraw_draws : (s.setDraw d).draws = s.draws := rfl
@[simp] theorem State.setDraw_leds : (s.setDraw d).leds = s.leds := rfl
@[simp] theorem State.setDraw_txWords : (s.setDraw d).txWords = s.txWords := rfl
@[simp] theorem State.setDraw_resetWords : (s.setDraw d).resetWords = s.resetWords := rfl

@[simp] theorem State.openInstance_params : (s.openInstance m count).params = s.params := rfl
@[simp] theorem State.openInstance_life : (s.openInstance m count).life = .ready := rfl
@[simp] theorem State.openInstance_model : (s.openInstance m count).model = m := rfl
@[simp] theorem State.openInstance_ledCount : (s.openInstance m count).ledCount = count := rfl
@[simp] theorem State.openInstance_busy : (s.openInstance m count).busy = s.busy := rfl
@[simp] theorem State.openInstance_owner : (s.openInstance m count).owner = s.owner := rfl
@[simp] theorem State.openInstance_phase : (s.openInstance m count).phase = s.phase := rfl
@[simp] theorem State.openInstance_tcfg : (s.openInstance m count).tcfg = true := rfl
@[simp] theorem State.openInstance_pixel : (s.openInstance m count).pixel = s.pixel.fillBelow count.toNat Color.black := rfl
@[simp] theorem State.openInstance_txbuf : (s.openInstance m count).txbuf = s.txbuf := rfl
@[simp] theorem State.openInstance_ports : (s.openInstance m count).ports = s.ports := rfl
@[simp] theorem State.openInstance_wire : (s.openInstance m count).wire = s.wire := rfl
@[simp] theorem State.openInstance_draw : (s.openInstance m count).draw = s.draw := rfl
@[simp] theorem State.openInstance_sched : (s.openInstance m count).sched = s.sched := rfl
@[simp] theorem State.openInstance_draws : (s.openInstance m count).draws = s.draws := rfl
@[simp] theorem State.openInstance_leds : (s.openInstance m count).leds = count.toNat := rfl
@[simp] theorem State.openInstance_txWords : (s.openInstance m count).txWords = frameWordCount m count.toNat := rfl
@[simp] theorem State.openInstance_resetWords : (s.openInstance m count).resetWords = resetDelay m := rfl

@[simp] theorem State.closeInstance_params : s.closeInstance.params = s.params := rfl
@[simp] theorem State.closeInstance_life : s.closeInstance.life = .uninit := rfl
@[simp] theorem State.closeInstance_model : s.closeInstance.model = .modelA := rfl
@[simp] theorem State.closeInstance_ledCount : s.closeInstance.ledCount = 0 := rfl
@[simp] theorem State.closeInstance_busy : s.closeInstance.busy = s.busy := rfl
@[simp] theorem State.closeInstance_owner : s.closeInstance.owner = s.owner := rfl
@[simp] theorem State.closeInstance_phase : s.closeInstance.phase = s.phase := rfl
@[simp] theorem State.closeInstance_tcfg : s.closeInstance.tcfg = false := rfl
@[simp] theorem State.closeInstance_pixel : s.closeInstance.pixel = [] := rfl
@[simp] theorem State.closeInstance_txbuf : s.closeInstance.txbuf = [] := rfl
@[simp] theorem State.closeInstance_ports : s.closeInstance.ports = s.ports := rfl
@[simp] theorem State.closeInstance_wire : s.closeInstance.wire = s.wire := rfl
@[simp] theorem State.closeInstance_draw : s.closeInstance.draw = s.draw := rfl
@[simp] theorem State.closeInstance_sched : s.closeInstance.sched = s.sched := rfl
@[simp] theorem State.closeInstance_draws : s.closeInstance.draws = s.draws := rfl
@[simp] theorem State.closeInstance_leds : s.closeInstance.leds = 0 := rfl
@[simp] theorem State.closeInstance_txWords : s.closeInstance.txWords = 4 := rfl
@[simp] theorem State.closeInstance_resetWords : s.closeInstance.resetWords = 3 := rfl

/-- Setting the draws to what they are changes nothing. -/
@[simp] theorem State.setDraw_self : s.setDraw s.draw = s := rfl

/-! PHASE's legality reads BUSY, PHASE, LED_COUNT and MODEL only. -/

@[simp] theorem State.setPort_phaseLegal : (s.setPort p q).phaseLegal = s.phaseLegal := rfl
@[simp] theorem State.emit_phaseLegal : (s.emit e).phaseLegal = s.phaseLegal := rfl
@[simp] theorem State.setPixels_phaseLegal : (s.setPixels mp).phaseLegal = s.phaseLegal := rfl
@[simp] theorem State.setTxbuf_phaseLegal : (s.setTxbuf mt).phaseLegal = s.phaseLegal := rfl
@[simp] theorem State.setDraw_phaseLegal : (s.setDraw d).phaseLegal = s.phaseLegal := rfl

/-! The draws of the step being taken are no part of what R38 and R45 say. -/

@[simp] theorem State.setDraw_portsLegal : (s.setDraw d).portsLegal = s.portsLegal := rfl
@[simp] theorem State.setDraw_rulesHold : (s.setDraw d).rulesHold = s.rulesHold := rfl

end Updates

section Responses

variable (s : State) (p : Nat) (st : Status) (d : BitVec 28)

theorem respond_eq : respond p st d s = s.setPort p (.done (responseWord st d)) := rfl

theorem raise_eq : raise st s = s.setPort s.draw.port (.done (responseWord st 0#28)) := rfl

theorem complete_eq : complete d s = s.setPort s.draw.port (.done (responseWord .ok d)) := rfl

/-- What a port holds after one port was written: the write where it went and the port exists. -/
theorem State.port_setPort (q : PortState) (r : Nat) :
    (s.setPort p q).ports[r]? = if p = r ∧ p < s.ports.length then some q else s.ports[r]? := by
  simp only [State.setPort_ports, List.getElem?_set]
  by_cases h : p = r
  · subst h
    by_cases h2 : p < s.ports.length
    · simp [h2]
    · simp [h2]
  · simp [h]

/-- The other ports are not touched. -/
theorem State.port_setPort_other (q : PortState) (r : Nat) (h : r ≠ p) :
    (s.setPort p q).ports[r]? = s.ports[r]? := by
  rw [State.port_setPort]; simp [Ne.symm h]

/-- The written port, where it exists. -/
theorem State.port_setPort_same (q : PortState) (h : p < s.ports.length) :
    (s.setPort p q).ports[p]? = some q := by
  rw [State.port_setPort]; simp [h]

/-- Writing back what the port holds changes nothing. -/
theorem State.setPort_self (q : PortState) (h : s.ports[p]? = some q) : s.setPort p q = s := by
  obtain ⟨hlt, rfl⟩ := List.getElem?_eq_some_iff.mp h
  simp [State.setPort]

/-- The second of two writes to one port stands. -/
theorem State.setPort_setPort (q q' : PortState) : (s.setPort p q).setPort p q' = s.setPort p q' := by
  simp [State.setPort]

/-! The response words of R108 with no data. -/

@[simp] theorem responseWord_ok_zero : responseWord .ok 0#28 = 0x00000000#32 := by decide
@[simp] theorem responseWord_outOfRange : responseWord .outOfRange 0#28 = 0x00000001#32 := by decide
@[simp] theorem responseWord_outOfMemory : responseWord .outOfMemory 0#28 = 0x00000002#32 := by decide
@[simp] theorem responseWord_transportInitError : responseWord .transportInitError 0#28 = 0x00000003#32 := by decide
@[simp] theorem responseWord_transmitError : responseWord .transmitError 0#28 = 0x00000004#32 := by decide
@[simp] theorem responseWord_stateError : responseWord .stateError 0#28 = 0x00000005#32 := by decide
@[simp] theorem responseWord_illegalCommand : responseWord .illegalCommand 0#28 = 0x00000006#32 := by decide

/-- The low four bits of a response are its status (R102). -/
@[simp] theorem responseWord_status : (responseWord st d).extractLsb' 0 4 = st.code := by
  apply BitVec.eq_of_getLsbD_eq
  intro i hi
  simp only [responseWord, BitVec.getLsbD_extractLsb', BitVec.getLsbD_append, Nat.zero_add]
  simp [hi]

/-- The other 28 are its data (R102). -/
@[simp] theorem responseWord_data : (responseWord st d).extractLsb' 4 28 = d := by
  apply BitVec.eq_of_getLsbD_eq
  intro i hi
  simp only [responseWord, BitVec.getLsbD_extractLsb', BitVec.getLsbD_append]
  simp [hi]

end Responses

section Advance

variable (s : State)

@[simp] theorem State.advance_params : s.advance.params = s.params := by unfold State.advance; split <;> rfl
@[simp] theorem State.advance_life : s.advance.life = s.life := by unfold State.advance; split <;> rfl
@[simp] theorem State.advance_model : s.advance.model = s.model := by unfold State.advance; split <;> rfl
@[simp] theorem State.advance_ledCount : s.advance.ledCount = s.ledCount := by unfold State.advance; split <;> rfl
@[simp] theorem State.advance_busy : s.advance.busy = s.busy := by unfold State.advance; split <;> rfl
@[simp] theorem State.advance_owner : s.advance.owner = s.owner := by unfold State.advance; split <;> rfl
@[simp] theorem State.advance_phase : s.advance.phase = s.phase := by unfold State.advance; split <;> rfl
@[simp] theorem State.advance_tcfg : s.advance.tcfg = s.tcfg := by unfold State.advance; split <;> rfl
@[simp] theorem State.advance_pixel : s.advance.pixel = s.pixel := by unfold State.advance; split <;> rfl
@[simp] theorem State.advance_txbuf : s.advance.txbuf = s.txbuf := by unfold State.advance; split <;> rfl
@[simp] theorem State.advance_ports : s.advance.ports = s.ports := by unfold State.advance; split <;> rfl
@[simp] theorem State.advance_wire : s.advance.wire = s.wire := by unfold State.advance; split <;> rfl
@[simp] theorem State.advance_draw : s.advance.draw = s.draw := by unfold State.advance; split <;> rfl
@[simp] theorem State.advance_leds : s.advance.leds = s.leds := by unfold State.advance; split <;> rfl
@[simp] theorem State.advance_txWords : s.advance.txWords = s.txWords := by unfold State.advance; split <;> rfl
@[simp] theorem State.advance_resetWords : s.advance.resetWords = s.resetWords := by unfold State.advance; split <;> rfl

@[simp] theorem State.advance_phaseLegal : s.advance.phaseLegal = s.phaseLegal := by
  unfold State.advance; split <;> rfl

@[simp] theorem State.advance_portsLegal : s.advance.portsLegal = s.portsLegal := by
  unfold State.advance; split <;> rfl

@[simp] theorem State.advance_rulesHold : s.advance.rulesHold = s.rulesHold := by
  unfold State.advance; split <;> rfl

theorem State.nextMove_cons (m : Move) (ms : List Move) (h : s.sched = m :: ms) : s.nextMove = m := by
  simp [State.nextMove, h]

theorem State.advance_cons (m : Move) (ms : List Move) (h : s.sched = m :: ms) : s.advance = { s with sched := ms } := by
  simp [State.advance, h]

end Advance

end Sys2Proof.Machine
end

