-- ==== Sys2Proof/Laws/Ops.lean ====
section
/-!
SUPPORT. What each shared operation answers, said once: the result it gives and exactly when it gives it.
-/

namespace Sys2Proof.Machine

theorem proceed_eq_next {α : Type} (r : Except Fault α) (k : α → Host.Outcome State Fault Refusal) (t : State) :
    proceed r k = .next t ↔ ∃ a, r = .ok a ∧ k a = .next t := by
  cases r <;> simp [proceed]

@[simp] theorem proceed_ok {α : Type} (a : α) (k : α → Host.Outcome State Fault Refusal) :
    proceed (.ok a) k = k a := rfl

@[simp] theorem proceed_error {α : Type} (f : Fault) (k : α → Host.Outcome State Fault Refusal) :
    proceed (.error f) k = .fault f := rfl

/-- Every port has a legal value, port by port. -/
theorem State.portsLegal_iff (s : State) :
    s.portsLegal = true ↔ ∀ (p : Nat) (q : PortState), s.ports[p]? = some q → s.portLegal p q = true := by
  unfold State.portsLegal
  rw [List.all_eq_true]
  constructor
  · intro h p q hq
    exact h (q, p) (List.mem_zipIdx_iff_getElem?.mpr hq)
  · intro h e he
    exact h e.2 e.1 (List.mem_zipIdx_iff_getElem?.mp he)

/-- Writing a legal value to a port keeps the ports legal. -/
theorem State.setPort_portsLegal {s : State} {p : Nat} {q : PortState} (h : s.portsLegal = true)
    (hq : s.portLegal p q = true) : (s.setPort p q).portsLegal = true := by
  refine (s.setPort p q).portsLegal_iff.mpr fun r x hx => ?_
  rw [State.port_setPort] at hx
  split_ifs at hx with hc
  · obtain ⟨rfl, -⟩ := hc
    obtain rfl : q = x := by simpa using hx
    exact hq
  · exact s.portsLegal_iff.mp h r x hx

theorem State.rulesHold_iff (s : State) : s.rulesHold = true ↔ s.phaseLegal = true ∧ s.portsLegal = true := by
  simp [State.rulesHold]

/-- A checked step that answers a next state is the step itself, inside the rules. -/
theorem checked_eq_next (s t : State) (r : Host.Outcome State Fault Refusal) :
    checked s r = .next t ↔ s.rulesHold = true ∧ r = .next t := by
  unfold checked
  split_ifs with h1 h2 <;> simp_all [State.rulesHold]

/-- Inside the rules the check changes nothing. -/
theorem checked_of_rulesHold {s : State} (h : s.rulesHold = true) (r : Host.Outcome State Fault Refusal) :
    checked s r = r := by
  obtain ⟨h1, h2⟩ := s.rulesHold_iff.mp h
  simp [checked, h1, h2]

theorem readPixel_eq_ok (s : State) (i : Nat) (c : Color) :
    readPixel s i = .ok c ↔ i < s.params.maxLeds ∧ s.pixel.read i = some c := by
  unfold readPixel
  split_ifs with h
  · cases s.pixel.read i <;> simp [h]
  · simp [h]

theorem writePixel_eq_ok (s t : State) (i : Nat) (c : Color) :
    writePixel s i c = .ok t ↔ i < s.params.maxLeds ∧ t = s.setPixels (s.pixel.write i c) := by
  unfold writePixel
  split_ifs with h
  · simp [h, eq_comm]
  · simp [h]

theorem readSymbol_eq_ok (s : State) (k : Nat) (w : Symbol) :
    readSymbol s k = .ok w ↔ s.txbuf.read k = some w := by
  unfold readSymbol
  cases s.txbuf.read k <;> simp

theorem writeSymbols_eq_ok (s t : State) (k : Nat) (ws : List Symbol) :
    writeSymbols s k ws = .ok t ↔
      k + ws.length ≤ s.params.txbufWords ∧ t = s.setTxbuf (s.txbuf.writeAll k ws) := by
  unfold writeSymbols
  split_ifs with h
  · simp [h, eq_comm]
  · simp [h]

end Sys2Proof.Machine
end

