-- ==== Sys2Proof/Laws/Exec.lean ====
section
/-!
SUPPORT. One inversion lemma per command: if its meaning answers a next state, one of these cases holds, its guard
included. Proofs about a command cite its lemma and do not unfold the meaning.
-/

namespace Sys2Proof.Machine

variable {s t : State}

theorem execLutRead_cases {n : Nibble} (h : execLutRead n s = .next t) : t = complete (symbolData (lut n)) s := by
  simpa [execLutRead, eq_comm] using h

theorem execSetPixel_cases {index : BitVec 16} {c : Color} (h : execSetPixel index c s = .next t) :
    (s.life = .uninit ∧ t = raise .stateError s) ∨
    (s.life = .ready ∧ s.leds ≤ index.toNat ∧ t = raise .outOfRange s) ∨
    (s.life = .ready ∧ index.toNat < s.leds ∧ index.toNat < s.params.maxLeds ∧
      t = complete 0#28 (s.setPixels (s.pixel.write index.toNat c))) := by
  unfold execSetPixel at h
  split_ifs at h with h1 h2
  · exact .inl ⟨h1, by simpa [eq_comm] using h⟩
  · have hr : s.life = .ready := by cases hl : s.life <;> simp_all
    exact .inr (.inl ⟨hr, by simpa [State.outOfRange] using h2, by simpa [eq_comm] using h⟩)
  · have hr : s.life = .ready := by cases hl : s.life <;> simp_all
    obtain ⟨u, hu, ht⟩ := (proceed_eq_next _ _ _).mp h
    obtain ⟨hm, rfl⟩ := (writePixel_eq_ok _ _ _ _).mp hu
    exact .inr (.inr ⟨hr, by simpa [State.outOfRange] using h2, hm, by simpa [eq_comm] using ht⟩)

theorem execFillAll_cases {c : Color} (h : execFillAll c s = .next t) :
    (s.life = .uninit ∧ t = raise .stateError s) ∨
    (s.life = .ready ∧ s.leds = 0 ∧ t = complete 0#28 s) ∨
    (s.life = .ready ∧ 0 < s.leds ∧ t = s.setPort s.draw.port (.filling c 0)) := by
  unfold execFillAll at h
  split_ifs at h with h1 h2
  · exact .inl ⟨h1, by simpa [eq_comm] using h⟩
  · have hr : s.life = .ready := by cases hl : s.life <;> simp_all
    exact .inr (.inl ⟨hr, h2, by simpa [eq_comm] using h⟩)
  · have hr : s.life = .ready := by cases hl : s.life <;> simp_all
    exact .inr (.inr ⟨hr, Nat.pos_of_ne_zero h2, by simpa [eq_comm] using h⟩)

theorem fillStep_cases {p i : Nat} {c : Color} (hi : i < s.leds) (h : fillStep p c i s = .next t) :
    i < s.params.maxLeds ∧
    ((i + 1 = s.leds ∧ t = respond p .ok 0#28 (s.setPixels (s.pixel.write i c))) ∨
     (i + 1 < s.leds ∧ t = (s.setPixels (s.pixel.write i c)).setPort p (.filling c (i + 1)))) := by
  obtain ⟨u, hu, ht⟩ := (proceed_eq_next _ _ _).mp h
  obtain ⟨hm, rfl⟩ := (writePixel_eq_ok _ _ _ _).mp hu
  split_ifs at ht with h2
  · exact ⟨hm, .inl ⟨h2, by simpa [eq_comm] using ht⟩⟩
  · exact ⟨hm, .inr ⟨by omega, by simpa [eq_comm] using ht⟩⟩

theorem execGetPixel_cases {index : BitVec 16} (h : execGetPixel index s = .next t) :
    (s.life = .uninit ∧ t = raise .stateError s) ∨
    (s.life = .ready ∧ s.leds ≤ index.toNat ∧ t = raise .outOfRange s) ∨
    (s.life = .ready ∧ index.toNat < s.leds ∧ index.toNat < s.params.maxLeds ∧
      ∃ c, s.pixel.read index.toNat = some c ∧ t = complete (colorData c) s) := by
  unfold execGetPixel at h
  split_ifs at h with h1 h2
  · exact .inl ⟨h1, by simpa [eq_comm] using h⟩
  · have hr : s.life = .ready := by cases hl : s.life <;> simp_all
    exact .inr (.inl ⟨hr, by simpa [State.outOfRange] using h2, by simpa [eq_comm] using h⟩)
  · have hr : s.life = .ready := by cases hl : s.life <;> simp_all
    obtain ⟨c, hc, ht⟩ := (proceed_eq_next _ _ _).mp h
    obtain ⟨hm, hc⟩ := (readPixel_eq_ok _ _ _).mp hc
    exact .inr (.inr ⟨hr, by simpa [State.outOfRange] using h2, hm, c, hc, by simpa [eq_comm] using ht⟩)

theorem execInit_cases {m : StripModel} {count : BitVec 16} (h : execInit m count s = .next t) :
    (s.life = .ready ∧ t = raise .stateError s) ∨
    (s.life = .uninit ∧ overCapacity s.params m count.toNat = true ∧ t = raise .outOfMemory s) ∨
    (s.life = .uninit ∧ overCapacity s.params m count.toNat = false ∧ s.draw.tok = false ∧
      t = raise .transportInitError s) ∨
    (s.life = .uninit ∧ overCapacity s.params m count.toNat = false ∧ s.draw.tok = true ∧
      t = complete 0#28 (s.openInstance m count)) := by
  unfold execInit at h
  split_ifs at h with h1 h2 h3
  · exact .inl ⟨h1, by simpa [eq_comm] using h⟩
  all_goals have hu : s.life = .uninit := by cases hl : s.life <;> simp_all
  · exact .inr (.inl ⟨hu, h2, by simpa [eq_comm] using h⟩)
  · exact .inr (.inr (.inl ⟨hu, by simpa using h2, h3, by simpa [eq_comm] using h⟩))
  · exact .inr (.inr (.inr ⟨hu, by simpa using h2, by simpa using h3, by simpa [eq_comm] using h⟩))

theorem execTeardown_cases (h : execTeardown s = .next t) :
    ((s.life = .uninit ∨ s.active = true) ∧ t = raise .stateError s) ∨
    (s.life = .ready ∧ s.active = false ∧ t = complete 0#28 s.closeInstance) := by
  unfold execTeardown at h
  split_ifs at h with h1 h2
  · exact .inl ⟨.inl h1, by simpa [eq_comm] using h⟩
  · exact .inl ⟨.inr h2, by simpa [eq_comm] using h⟩
  · have hr : s.life = .ready := by cases hl : s.life <;> simp_all
    exact .inr ⟨hr, by simpa using h2, by simpa [eq_comm] using h⟩

theorem execUpdate_cases (h : execUpdate s = .next t) :
    (s.life = .uninit ∧ t = raise .stateError s) ∨
    (s.life = .ready ∧ s.busy = true ∧ t = s) ∨
    (s.life = .ready ∧ s.busy = false ∧
      t = ((s.takeGate s.draw.port).setPhase .encHead).setPort s.draw.port .updating) := by
  unfold execUpdate at h
  split_ifs at h with h1 h2
  · exact .inl ⟨h1, by simpa [eq_comm] using h⟩
  all_goals have hr : s.life = .ready := by cases hl : s.life <;> simp_all
  · exact .inr (.inl ⟨hr, h2, by simpa [eq_comm] using h⟩)
  · exact .inr (.inr ⟨hr, by simpa using h2, by simpa [eq_comm] using h⟩)

end Sys2Proof.Machine
end

