-- ==== Sys2Proof/Laws/Agents.lean ====
section
/-!
SUPPORT. What a step of each agent can do, said once: an inversion lemma per agent, and `Effect`, the list of the
machine's atomic transitions, with the lemma that a step takes one of them. Invariants are proved by cases on it.
-/

namespace Sys2Proof.Machine

variable {s t : State}

section EncodedWords

variable (s : State) (p : Nat) (q : PortState) (e : WireEvent) (d : Draw) (mp : Memory Color) (mt : Memory Symbol)

@[simp] theorem State.setPort_encodedWords : (s.setPort p q).encodedWords = s.encodedWords := rfl
@[simp] theorem State.emit_encodedWords : (s.emit e).encodedWords = s.encodedWords := rfl
@[simp] theorem State.setPixels_encodedWords : (s.setPixels mp).encodedWords = s.encodedWords := rfl
@[simp] theorem State.setTxbuf_encodedWords : (s.setTxbuf mt).encodedWords = s.encodedWords := rfl
@[simp] theorem State.setDraw_encodedWords : (s.setDraw d).encodedWords = s.encodedWords := rfl
@[simp] theorem State.advance_encodedWords : s.advance.encodedWords = s.encodedWords := by
  unfold State.advance; split <;> rfl

end EncodedWords

theorem hostPresent_cases (p : Nat) (cmd : CmdWord) (s : State) :
    (s.ports[p]? = some .idle ∧ hostPresent p cmd s = s.setPort p (.pending cmd)) ∨
    (s.ports[p]? ≠ some .idle ∧ hostPresent p cmd s = s) := by
  unfold hostPresent
  split_ifs with h
  · exact .inl ⟨h, rfl⟩
  · exact .inr ⟨h, rfl⟩

theorem response_eq_some (s : State) (p : Nat) (rsp : RspWord) :
    s.response p = some rsp ↔ s.ports[p]? = some (.done rsp) := by
  unfold State.response
  split <;> simp_all

theorem hostTake_cases (p : Nat) (s : State) :
    (∃ rsp, s.ports[p]? = some (.done rsp) ∧ hostTake p s = s.setPort p .idle) ∨
    (s.response p = none ∧ hostTake p s = s) := by
  unfold hostTake
  cases h : s.response p with
  | none => exact .inr ⟨rfl, by simp⟩
  | some rsp => exact .inl ⟨rsp, (response_eq_some s p rsp).mp h, by simp⟩

theorem encHeadStep_cases (h : encHeadStep s = .next t) :
    1 ≤ s.params.txbufWords ∧
    t = (s.setTxbuf (s.txbuf.writeAll 0 [0#16])).setPhase (if 0 < s.leds then .encPix 0 else .encTail) := by
  obtain ⟨u, hu, ht⟩ := (proceed_eq_next _ _ _).mp h
  obtain ⟨hb, rfl⟩ := (writeSymbols_eq_ok _ _ _ _).mp hu
  exact ⟨by simpa using hb, by simpa [eq_comm] using ht⟩

theorem encPixStep_cases {i : Nat} (h : encPixStep i s = .next t) :
    ∃ c, s.pixel.read i = some c ∧ i < s.params.maxLeds ∧
      1 + 6 * i + (pixelSymbols s.model c).length ≤ s.params.txbufWords ∧
      t = (s.setTxbuf (s.txbuf.writeAll (1 + 6 * i) (pixelSymbols s.model c))).setPhase
        (if i + 1 < s.leds then .encPix (i + 1) else .encTail) := by
  obtain ⟨c, hc, h⟩ := (proceed_eq_next _ _ _).mp h
  obtain ⟨hm, hc⟩ := (readPixel_eq_ok _ _ _).mp hc
  obtain ⟨u, hu, ht⟩ := (proceed_eq_next _ _ _).mp h
  obtain ⟨hb, rfl⟩ := (writeSymbols_eq_ok _ _ _ _).mp hu
  exact ⟨c, hc, hm, hb, by simpa [eq_comm] using ht⟩

theorem encTailStep_cases (h : encTailStep s = .next t) :
    1 + 6 * s.leds + s.resetWords ≤ s.params.txbufWords ∧
    t = ((s.setTxbuf (s.txbuf.writeAll (1 + 6 * s.leds) (List.replicate s.resetWords 0#16))).emit
      (.frameStart (16 * s.txWords))).setPhase (.tx 0) := by
  obtain ⟨u, hu, ht⟩ := (proceed_eq_next _ _ _).mp h
  obtain ⟨hb, rfl⟩ := (writeSymbols_eq_ok _ _ _ _).mp hu
  exact ⟨by simpa using hb, by simpa [eq_comm] using ht⟩

/-- The atomic transitions of the machine, by the move that takes each, with its guard. Of the environment's own
fields, `draw` is the step's; `sched` and `draws` are not read. -/
inductive Effect (s : State) : Move → State → Prop
  /-- The agent chosen has no enabled step. -/
  | idle (m : Move) (hm : s.enabled m = false) : Effect s m s
  | present (p : Nat) (cmd : CmdWord) (hp : s.ports[p]? = some .idle) :
      Effect s (.present p cmd) (s.setPort p (.pending cmd))
  | take (p : Nat) (rsp : RspWord) (hp : s.ports[p]? = some (.done rsp)) : Effect s (.take p) (s.setPort p .idle)
  /-- A word answered with an error: it is no command, or its command's checks fail. -/
  | refuse (p : Nat) (tok : Bool) (w : CmdWord) (st : Status) (hp : s.ports[p]? = some (.pending w)) (hst : st ≠ .ok) :
      Effect s (.port p tok) (s.setPort p (.done (responseWord st 0#28)))
  | getPixel (p : Nat) (tok : Bool) (w : CmdWord) (index : BitVec 16) (c : Color)
      (hp : s.ports[p]? = some (.pending w)) (hd : decode w = .ok (.getPixel index)) (hl : s.life = .ready)
      (hi : index.toNat < s.leds) (hc : s.pixel.read index.toNat = some c) :
      Effect s (.port p tok) (s.setPort p (.done (responseWord .ok (colorData c))))
  | lutRead (p : Nat) (tok : Bool) (w : CmdWord) (n : Nibble) (hp : s.ports[p]? = some (.pending w))
      (hd : decode w = .ok (.lutRead n)) :
      Effect s (.port p tok) (s.setPort p (.done (responseWord .ok (symbolData (lut n)))))
  | setPixel (p : Nat) (tok : Bool) (w : CmdWord) (index : BitVec 16) (c : Color)
      (hp : s.ports[p]? = some (.pending w)) (hd : decode w = .ok (.setPixel index c)) (hl : s.life = .ready)
      (hi : index.toNat < s.leds) :
      Effect s (.port p tok)
        ((s.setPixels (s.pixel.write index.toNat c)).setPort p (.done (responseWord .ok 0#28)))
  | fillNone (p : Nat) (tok : Bool) (w : CmdWord) (c : Color) (hp : s.ports[p]? = some (.pending w))
      (hd : decode w = .ok (.fillAll c)) (hl : s.life = .ready) (h0 : s.leds = 0) :
      Effect s (.port p tok) (s.setPort p (.done (responseWord .ok 0#28)))
  | fillStart (p : Nat) (tok : Bool) (w : CmdWord) (c : Color) (hp : s.ports[p]? = some (.pending w))
      (hd : decode w = .ok (.fillAll c)) (hl : s.life = .ready) (h0 : 0 < s.leds) :
      Effect s (.port p tok) (s.setPort p (.filling c 0))
  | fillNext (p : Nat) (tok : Bool) (c : Color) (i : Nat) (hp : s.ports[p]? = some (.filling c i))
      (hi : i + 1 < s.leds) :
      Effect s (.port p tok) ((s.setPixels (s.pixel.write i c)).setPort p (.filling c (i + 1)))
  | fillLast (p : Nat) (tok : Bool) (c : Color) (i : Nat) (hp : s.ports[p]? = some (.filling c i))
      (hi : i + 1 = s.leds) :
      Effect s (.port p tok) ((s.setPixels (s.pixel.write i c)).setPort p (.done (responseWord .ok 0#28)))
  | openInstance (p : Nat) (tok : Bool) (w : CmdWord) (m : StripModel) (count : BitVec 16)
      (hp : s.ports[p]? = some (.pending w)) (hd : decode w = .ok (.init m count)) (hl : s.life = .uninit)
      (hc : overCapacity s.params m count.toNat = false) (ht : s.draw.tok = true) :
      Effect s (.port p tok) ((s.openInstance m count).setPort p (.done (responseWord .ok 0#28)))
  | closeInstance (p : Nat) (tok : Bool) (w : CmdWord) (hp : s.ports[p]? = some (.pending w))
      (hd : decode w = .ok .teardown) (hl : s.life = .ready) (ha : s.active = false) :
      Effect s (.port p tok) (s.closeInstance.setPort p (.done (responseWord .ok 0#28)))
  | acquire (p : Nat) (tok : Bool) (w : CmdWord) (hp : s.ports[p]? = some (.pending w))
      (hd : decode w = .ok .update) (hl : s.life = .ready) (hb : s.busy = false) :
      Effect s (.port p tok) (((s.takeGate p).setPhase .encHead).setPort p .updating)
  | encHead (hph : s.phase = .encHead) (hb : s.busy = true) :
      Effect s .engine
        ((s.setTxbuf (s.txbuf.writeAll 0 [0#16])).setPhase (if 0 < s.leds then .encPix 0 else .encTail))
  | encPix (i : Nat) (c : Color) (hph : s.phase = .encPix i) (hb : s.busy = true) (hi : i < s.leds)
      (hc : s.pixel.read i = some c) :
      Effect s .engine ((s.setTxbuf (s.txbuf.writeAll (1 + 6 * i) (pixelSymbols s.model c))).setPhase
        (if i + 1 < s.leds then .encPix (i + 1) else .encTail))
  | encTail (hph : s.phase = .encTail) (hb : s.busy = true) :
      Effect s .engine
        (((s.setTxbuf (s.txbuf.writeAll (1 + 6 * s.leds) (List.replicate s.resetWords 0#16))).emit
          (.frameStart (16 * s.txWords))).setPhase (.tx 0))
  | txWord (k : Nat) (w : Symbol) (hph : s.phase = .tx k) (hb : s.busy = true) (hk : k < s.txWords)
      (hw : s.txbuf.read k = some w) : Effect s .transportWord ((s.emit (.word k w)).setPhase (.tx (k + 1)))
  | txEnd (k : Nat) (ok : Bool) (hph : s.phase = .tx k) (hb : s.busy = true) (hk : k ≤ s.txWords)
      (hok : ok = true → k = s.txWords) (ho : s.ports[s.owner]? = some .updating) :
      Effect s (.transportEnd ok)
        (((s.emit (.frameEnd (transmitStatus ok))).releaseGate.setPhase .idle).setPort s.owner
          (.done (responseWord (transmitStatus ok) 0#28)))
  | reset : Effect s .reset (resetBlock s)

/-- The responses of R108: an error has no data (R102). -/
theorem legalResponse_error (st : Status) : legalResponse (responseWord st 0#28) = true := by
  cases st <;> decide

theorem legalResponse_ok (d : BitVec 28) (h : d.extractLsb' 0 4 = 0) : legalResponse (responseWord .ok d) = true := by
  have h1 : (responseWord .ok d).extractLsb' 4 4 = d.extractLsb' 0 4 := by
    apply BitVec.eq_of_getLsbD_eq
    intro i hi
    simp only [responseWord, BitVec.getLsbD_extractLsb', BitVec.getLsbD_append, Nat.zero_add]
    simp [hi]
  simp [legalResponse, h1, h, Status.code]

theorem colorData_low (c : Color) : (colorData c).extractLsb' 0 4 = 0 := by
  apply BitVec.eq_of_getLsbD_eq
  intro i hi
  simp only [colorData, BitVec.getLsbD_extractLsb', BitVec.getLsbD_append, Nat.zero_add]
  simp [hi]

theorem symbolData_low (w : Symbol) : (symbolData w).extractLsb' 0 4 = 0 := by
  apply BitVec.eq_of_getLsbD_eq
  intro i hi
  simp only [symbolData, BitVec.getLsbD_extractLsb', BitVec.getLsbD_append, Nat.zero_add]
  simp [hi, show i < 12 by omega]

/-- A command executed by the port it is pending on. -/
theorem exec_effect {i : Instr} {w : CmdWord} {p : Nat} {tok : Bool} (hdr : s.draw = { port := p, tok := tok })
    (hp : s.ports[p]? = some (.pending w)) (hd : decode w = .ok i) (h : exec i s = .next t) :
    Effect s (.port p tok) t := by
  have hdp : s.draw.port = p := by rw [hdr]
  cases i with
  | init m count =>
    obtain ⟨-, rfl⟩ | ⟨-, -, rfl⟩ | ⟨-, -, -, rfl⟩ | ⟨hl, hc, ht, rfl⟩ := execInit_cases h
    · rw [raise_eq, hdp]; exact .refuse _ _ _ _ hp (by decide)
    · rw [raise_eq, hdp]; exact .refuse _ _ _ _ hp (by decide)
    · rw [raise_eq, hdp]; exact .refuse _ _ _ _ hp (by decide)
    · rw [complete_eq, State.openInstance_draw, hdp]; exact .openInstance _ _ _ m count hp hd hl hc ht
  | teardown =>
    obtain ⟨-, rfl⟩ | ⟨hl, ha, rfl⟩ := execTeardown_cases h
    · rw [raise_eq, hdp]; exact .refuse _ _ _ _ hp (by decide)
    · rw [complete_eq, State.closeInstance_draw, hdp]; exact .closeInstance _ _ _ hp hd hl ha
  | setPixel index c =>
    obtain ⟨-, rfl⟩ | ⟨-, -, rfl⟩ | ⟨hl, hi, -, rfl⟩ := execSetPixel_cases h
    · rw [raise_eq, hdp]; exact .refuse _ _ _ _ hp (by decide)
    · rw [raise_eq, hdp]; exact .refuse _ _ _ _ hp (by decide)
    · rw [complete_eq, State.setPixels_draw, hdp]; exact .setPixel _ _ _ _ c hp hd hl hi
  | fillAll c =>
    obtain ⟨-, rfl⟩ | ⟨hl, h0, rfl⟩ | ⟨hl, h0, rfl⟩ := execFillAll_cases h
    · rw [raise_eq, hdp]; exact .refuse _ _ _ _ hp (by decide)
    · rw [complete_eq, hdp]; exact .fillNone _ _ _ c hp hd hl h0
    · rw [hdp]; exact .fillStart _ _ _ c hp hd hl h0
  | getPixel index =>
    obtain ⟨-, rfl⟩ | ⟨-, -, rfl⟩ | ⟨hl, hi, -, c, hc, rfl⟩ := execGetPixel_cases h
    · rw [raise_eq, hdp]; exact .refuse _ _ _ _ hp (by decide)
    · rw [raise_eq, hdp]; exact .refuse _ _ _ _ hp (by decide)
    · rw [complete_eq, hdp]; exact .getPixel _ _ _ _ c hp hd hl hi hc
  | update =>
    obtain ⟨-, rfl⟩ | ⟨hl, hb, rfl⟩ | ⟨hl, hb, rfl⟩ := execUpdate_cases h
    · rw [raise_eq, hdp]; exact .refuse _ _ _ _ hp (by decide)
    · exact .idle _ (by simp [State.enabled, State.portEnabled, hp, hd, hl, hb])
    · rw [hdp]; exact .acquire _ _ _ hp hd hl hb
  | lutRead n =>
    obtain rfl := execLutRead_cases h
    rw [complete_eq, hdp]; exact .lutRead _ _ _ n hp hd

theorem portStep_effect {p : Nat} {tok : Bool} (hdr : s.draw = { port := p, tok := tok })
    (hl : s.portsLegal = true) (h : portStep p s = .next t) : Effect s (.port p tok) t := by
  unfold portStep at h
  split at h
  · rename_i w hp
    split at h
    · rename_i i hd
      exact exec_effect hdr hp hd h
    · obtain rfl : raise .illegalCommand s = t := by simpa using h
      rw [raise_eq, show s.draw.port = p by rw [hdr]]
      exact .refuse _ _ _ _ hp (by decide)
  · rename_i c i hp
    have hi : i < s.leds := by simpa [State.portLegal] using s.portsLegal_iff.mp hl p _ hp
    obtain ⟨-, ⟨hi, rfl⟩ | ⟨hi, rfl⟩⟩ := fillStep_cases hi h
    · exact .fillLast _ _ _ _ hp hi
    · exact .fillNext _ _ _ _ hp hi
  all_goals
    rename_i hp
    obtain rfl : s = t := by simpa using h
    exact .idle _ (by simp [State.enabled, State.portEnabled, hp])

theorem engineStep_effect (hl : s.phaseLegal = true) (h : engineStep s = .next t) : Effect s .engine t := by
  unfold engineStep at h
  unfold State.phaseLegal at hl
  split at h <;> rename_i hph <;> rw [hph] at hl
  · obtain rfl : s = t := by simpa using h
    exact .idle _ (by simp [State.enabled, hph])
  · obtain ⟨-, rfl⟩ := encHeadStep_cases h
    exact .encHead hph hl
  · obtain ⟨c, hc, -, -, rfl⟩ := encPixStep_cases h
    simp only [Bool.and_eq_true, decide_eq_true_eq] at hl
    exact .encPix _ c hph hl.1 hl.2 hc
  · obtain ⟨-, rfl⟩ := encTailStep_cases h
    exact .encTail hph hl
  · obtain rfl : s = t := by simpa using h
    exact .idle _ (by simp [State.enabled, hph])

theorem transportWordStep_effect (hl : s.phaseLegal = true) (h : transportWordStep s = .next t) :
    Effect s .transportWord t := by
  unfold transportWordStep at h
  unfold State.phaseLegal at hl
  split at h <;> rename_i hph
  · rename_i k
    rw [hph] at hl
    simp only [Bool.and_eq_true, decide_eq_true_eq] at hl
    by_cases hk : k < s.txWords
    · rw [if_pos hk] at h
      obtain ⟨w, hw, ht⟩ := (proceed_eq_next _ _ _).mp h
      obtain rfl : (s.emit (.word k w)).setPhase (.tx (k + 1)) = t := by simpa using ht
      exact .txWord k w hph hl.1 hk ((readSymbol_eq_ok _ _ _).mp hw)
    · rw [if_neg hk] at h
      obtain rfl : s = t := by simpa using h
      exact .idle _ (by simp [State.enabled, hph, Nat.le_of_not_lt hk])
  all_goals
    obtain rfl : s = t := by simpa using h
    exact .idle _ (by simp [State.enabled, hph])

theorem finishTransmission_cases {ok : Bool} (h : finishTransmission ok s = .next t) :
    s.ports[s.owner]? = some .updating ∧
    t = ((s.emit (.frameEnd (transmitStatus ok))).releaseGate.setPhase .idle).setPort s.owner
      (.done (responseWord (transmitStatus ok) 0#28)) := by
  unfold finishTransmission at h
  split_ifs at h with ho
  exact ⟨ho, by simpa [eq_comm, respond_eq] using h⟩

theorem transportEndStep_effect {ok : Bool} (hl : s.phaseLegal = true)
    (h : transportEndStep ok s = .next t) : Effect s (.transportEnd ok) t := by
  unfold transportEndStep at h
  unfold State.phaseLegal at hl
  split at h <;> rename_i hph
  · rename_i k
    rw [hph] at hl
    simp only [Bool.and_eq_true, decide_eq_true_eq] at hl
    split_ifs at h with hk
    · obtain ⟨ho, rfl⟩ := finishTransmission_cases h
      exact .txEnd k ok hph hl.1 hl.2 (by rcases hk with hk | hk <;> simp_all) ho
    · obtain rfl : s = t := by simpa using h
      exact .idle _ (by simpa [State.enabled, hph] using hk)
  all_goals
    obtain rfl : s = t := by simpa using h
    exact .idle _ (by simp [State.enabled, hph])

/-- The invariants put PHASE and every PORT inside the rules. -/
theorem State.Inv.rulesHold (h : s.Inv) : s.rulesHold = true := by
  refine s.rulesHold_iff.mpr ⟨h.phaseInRules, s.portsLegal_iff.mpr fun p q hq => ?_⟩
  cases q with
  | filling c i => simpa [State.portLegal] using h.fillInRange p c i hq
  | updating =>
    obtain ⟨hb, rfl⟩ := h.updatingOwns p hq
    simp [State.portLegal, hb]
  | _ => rfl

/-- Inside the rules a move is its agent's step; reset always is. -/
theorem moveStep_of_rulesHold (h : s.rulesHold = true) (m : Move) :
    moveStep m s = match m with
      | .present p cmd   => .next (hostPresent p cmd s)
      | .take p          => .next (hostTake p s)
      | .port p tok      => portStep p (s.setDraw { port := p, tok := tok })
      | .engine          => engineStep s
      | .transportWord   => transportWordStep s
      | .transportEnd ok => transportEndStep ok s
      | .reset           => .next (resetBlock s) := by
  cases m <;> first | rfl | exact checked_of_rulesHold h _

/-- The listed moves are no part of what R38 and R45 say. -/
@[simp] theorem State.withMoves_rulesHold (s : State) (ms : List Move) : (s.withMoves ms).rulesHold = s.rulesHold := rfl

/-- A step whose next move is listed takes that move, and the move is used up. -/
theorem step_of_sched {m : Move} {rest : List Move} (h : s.sched = m :: rest) :
    step s = moveStep m (s.withMoves rest) := by
  rw [step, State.nextMove_cons s m rest h, State.advance_cons s m rest h]; rfl

/-- Whatever the environment chose, the step is one of the atomic transitions of its move. -/
theorem moveStep_effect {m : Move} (h : moveStep m s = .next t) : ∃ d, Effect (s.setDraw d) m t := by
  cases m with
  | present p cmd =>
    refine ⟨s.draw, ?_⟩
    obtain ⟨-, h⟩ := (checked_eq_next _ _ _).mp h
    obtain rfl : hostPresent p cmd s = t := by simpa using h
    obtain ⟨hp, he⟩ | ⟨hp, he⟩ := hostPresent_cases p cmd s <;> rw [he]
    · exact .present p cmd hp
    · exact .idle _ (decide_eq_false hp)
  | take p =>
    refine ⟨s.draw, ?_⟩
    obtain ⟨-, h⟩ := (checked_eq_next _ _ _).mp h
    obtain rfl : hostTake p s = t := by simpa using h
    obtain ⟨rsp, hp, he⟩ | ⟨hp, he⟩ := hostTake_cases p s <;> rw [he]
    · exact .take p rsp hp
    · exact .idle _ (by rw [State.setDraw_self]; simp [State.enabled, hp])
  | port p tok =>
    obtain ⟨hr, h⟩ := (checked_eq_next _ _ _).mp h
    exact ⟨{ port := p, tok := tok }, portStep_effect rfl (s.rulesHold_iff.mp hr).2 h⟩
  | engine =>
    obtain ⟨hr, h⟩ := (checked_eq_next _ _ _).mp h
    exact ⟨s.draw, engineStep_effect (s.rulesHold_iff.mp hr).1 h⟩
  | transportWord =>
    obtain ⟨hr, h⟩ := (checked_eq_next _ _ _).mp h
    exact ⟨s.draw, transportWordStep_effect (s.rulesHold_iff.mp hr).1 h⟩
  | transportEnd ok =>
    obtain ⟨hr, h⟩ := (checked_eq_next _ _ _).mp h
    exact ⟨s.draw, transportEndStep_effect (s.rulesHold_iff.mp hr).1 h⟩
  | reset =>
    refine ⟨s.draw, ?_⟩
    obtain rfl : resetBlock s = t := by simpa [moveStep] using h
    exact .reset

/-- One step of the machine is one of the atomic transitions of its next move, but for the environment's own
fields. -/
theorem step_effect (h : step s = .next t) : ∃ d, Effect (s.advance.setDraw d) s.nextMove t := moveStep_effect h

end Sys2Proof.Machine
end

