-- ==== Sys2Proof/Laws/Encoding.lean ====
section
/-!
SUPPORT. The laws of the command word: each bit of a packed command, and its fields.
-/

namespace Sys2Proof

section Pack

variable (op : BitVec 4) (model : BitVec 1) (arg : BitVec 16) (r g b : Byte)

/-- Every bit of a packed command, from the field it lies in (R101). -/
theorem getLsbD_packCommand (i : Nat) (hi : i < 64) :
    (packCommand op model arg r g b).getLsbD i =
      (op.getLsbD i || (decide (8 ≤ i) && model.getLsbD (i - 8)) || (decide (16 ≤ i) && arg.getLsbD (i - 16))
        || (decide (32 ≤ i) && r.getLsbD (i - 32)) || (decide (40 ≤ i) && g.getLsbD (i - 40))
        || (decide (48 ≤ i) && b.getLsbD (i - 48))) := by
  have h : ∀ n, (!decide (i < n)) = decide (n ≤ i) := fun n => Bool.eq_iff_iff.mpr (by simp)
  simp only [packCommand, BitVec.getLsbD_or, BitVec.getLsbD_shiftLeft, BitVec.getLsbD_setWidth, h, hi, decide_true,
    Bool.true_and, show ∀ n, decide (i - n < 64) = true from fun n => by simp; omega]

theorem opField_packCommand : opField (packCommand op model arg r g b) = op := by
  apply BitVec.eq_of_getLsbD_eq
  intro i hi
  rw [opField, BitVec.getLsbD_extractLsb', Nat.zero_add, getLsbD_packCommand _ _ _ _ _ _ _ (by omega)]
  simp [hi, show ¬ 8 ≤ i by omega, show ¬ 16 ≤ i by omega, show ¬ 32 ≤ i by omega, show ¬ 40 ≤ i by omega,
    show ¬ 48 ≤ i by omega]

theorem argField_packCommand : argField (packCommand op model arg r g b) = arg := by
  apply BitVec.eq_of_getLsbD_eq
  intro i hi
  rw [argField, BitVec.getLsbD_extractLsb', getLsbD_packCommand _ _ _ _ _ _ _ (by omega)]
  have h1 : op.getLsbD (16 + i) = false := BitVec.getLsbD_of_ge _ _ (by omega)
  have h2 : model.getLsbD (16 + i - 8) = false := BitVec.getLsbD_of_ge _ _ (by omega)
  simp [hi, h1, h2, show ¬ 32 ≤ 16 + i by omega, show ¬ 40 ≤ 16 + i by omega, show ¬ 48 ≤ 16 + i by omega]

end Pack

/-- Two words agree where they agree on the bits a mask keeps. -/
theorem and_mask_eq_iff (w mask pattern : CmdWord) :
    w &&& mask = pattern ↔ ∀ i, i < 64 → (w.getLsbD i && mask.getLsbD i) = pattern.getLsbD i := by
  constructor
  · rintro rfl i -
    exact (BitVec.getLsbD_and).symm
  · intro h
    apply BitVec.eq_of_getLsbD_eq
    intro i hi
    rw [BitVec.getLsbD_and]
    exact h i hi

/-- The OP value of each operation (R106). -/
def Op.code : Op → BitVec 4
  | .init     => 1
  | .teardown => 2
  | .setPixel => 3
  | .fillAll  => 4
  | .getPixel => 5
  | .update   => 6
  | .lutRead  => 7

/-- A row accepts only words with its own OP: the mask of every row covers `CMD[3:0]`. -/
theorem opField_of_accepts (op : Op) (w : CmdWord) (h : op.row.accepts w = true) : opField w = op.code := by
  have h' : w &&& op.row.mask = op.row.pattern := by simpa [Row.accepts] using h
  have h2 : opField (w &&& op.row.mask) = opField w := by
    apply BitVec.eq_of_getLsbD_eq; intro i hi
    simp only [opField, BitVec.getLsbD_extractLsb', BitVec.getLsbD_and, Nat.zero_add]
    cases op <;> simp only [Op.row] <;> interval_cases i <;> simp
  rw [← h2, h']; cases op <;> decide

/-- The row of an operation is that operation's. -/
theorem Op.row_op (op : Op) : op.row.op = op := by cases op <;> rfl

/-- The table holds the row of each operation and no other. -/
theorem opcodeTable_eq_rows :
    opcodeTable = [Op.init, .teardown, .setPixel, .fillAll, .getPixel, .update, .lutRead].map Op.row := rfl

/-- No two operations share an OP value. -/
theorem Op.code_injective (a b : Op) (h : a.code = b.code) : a = b := by
  cases a <;> cases b <;> first | rfl | (exact absurd h (by decide))

/-- The row that accepts a word is the one the decoder finds. -/
theorem find_of_accepts (w : CmdWord) (op : Op) (h : op.row.accepts w = true) :
    opcodeTable.find? (fun r => r.accepts w) = some op.row := by
  have hother : ∀ op', op' ≠ op → op'.row.accepts w = false := by
    intro op' hne
    cases hh : op'.row.accepts w
    · rfl
    · exact absurd (Op.code_injective _ _ ((opField_of_accepts _ _ hh).symm.trans (opField_of_accepts _ _ h))) hne
  cases op <;> simp [opcodeTable, List.find?, h, hother]

/-- A word its row accepts decodes to that row's command. -/
theorem decode_of_accepts (w : CmdWord) (op : Op) (h : op.row.accepts w = true) :
    decode w = .ok (operandsOf op w) := by
  simp [decode, find_of_accepts w op h, Op.row_op]

/-- What a word that decodes says of itself: its command's row accepts it, and its operands are its fields. -/
theorem decode_eq_ok (w : CmdWord) (i : Instr) (h : decode w = .ok i) :
    i.op.row.accepts w = true ∧ i = operandsOf i.op w := by
  unfold decode at h
  split at h
  · rename_i r hr
    have ha := List.find?_some hr
    have hm := List.mem_of_find?_eq_some hr
    rw [opcodeTable_eq_rows] at hm
    obtain ⟨op, -, rfl⟩ := List.mem_map.mp hm
    rw [Op.row_op] at h
    simp at h ha
    have : i.op = op := by rw [← h]; cases op <;> rfl
    rw [this]; exact ⟨ha, h.symm⟩
  · simp at h

end Sys2Proof
end

