-- ==== Sys2Proof/Laws/Line.lean ====
section
/-!
SUPPORT. The line over parts of WIRE: words put one after another, the words of a frame within a history, and a history
with no rest, which is `State.line`.
-/

namespace Sys2Proof.Machine

@[simp] theorem lineOf_append (a b : List Symbol) : lineOf (a ++ b) = lineOf a ++ lineOf b := by simp [lineOf]

@[simp] theorem lineOf_cons (w : Symbol) (ws : List Symbol) : lineOf (w :: ws) = slots w ++ lineOf ws := rfl

@[simp] theorem wireWords_wordEvents (k : Nat) (ws : List Symbol) : wireWords (wordEvents k ws) = ws := by
  induction ws generalizing k with
  | nil => rfl
  | cons w ws ih => simp [wordEvents, wireWords, ih]

/-- The words of a frame, wherever they stand in WIRE. -/
theorem lineFrom_wordEvents (rest : Nat → Nat) (now : LineNow) (n k : Nat) (ws : List Symbol) (es : List WireEvent) :
    lineFrom rest now n (wordEvents k ws ++ es) = lineOf ws ++ lineFrom rest now n es := by
  induction ws generalizing k with
  | nil => rfl
  | cons w ws ih => simp [wordEvents, lineFrom, LineNow.after, ih]

theorem restSlots_zero (now : LineNow) (n : Nat) : restSlots now n 0 = [] := by cases now <;> rfl

/-- With no rest the line is the words on WIRE, one after another. -/
theorem lineFrom_noRest (now : LineNow) (n : Nat) (es : List WireEvent) :
    lineFrom (fun _ => 0) now n es = lineOf (wireWords es) := by
  induction es generalizing now n with
  | nil => exact restSlots_zero now n
  | cons e es ih => cases e <;> simp [lineFrom, wireWords, restSlots_zero, ih]

theorem State.lineHistory_noRest (s : State) : s.lineHistory (fun _ => 0) = s.line := lineFrom_noRest _ _ _

end Sys2Proof.Machine
end

