-- ==== Sys2Proof/Laws/PerInstr.lean ====
section
/-!
SUPPORT. The per-instruction family `FixedBits`: the encoder sets every bit that R107 fixes for the command, and no
bit that its row requires to be 0.
-/

namespace Sys2Proof.Laws.FixedBits

/-- The encoded word meets its own row's mask and match (R107). -/
def Statement (i : Instr) : Prop := encode i &&& i.op.row.mask = i.op.row.pattern

theorem init (m : StripModel) (count : BitVec 16) : Statement (.init m count) := by
  simp only [Statement, encode, Instr.op, Op.row, and_mask_eq_iff]
  intro i hi
  rw [getLsbD_packCommand _ _ _ _ _ _ _ hi]
  interval_cases i <;> cases m <;> simp [StripModel.bit]

theorem teardown : Statement .teardown := by unfold Statement; decide

theorem setPixel (index : BitVec 16) (c : Color) : Statement (.setPixel index c) := by
  simp only [Statement, encode, Instr.op, Op.row, and_mask_eq_iff]
  intro i hi
  rw [getLsbD_packCommand _ _ _ _ _ _ _ hi]
  interval_cases i <;> simp

theorem fillAll (c : Color) : Statement (.fillAll c) := by
  simp only [Statement, encode, Instr.op, Op.row, and_mask_eq_iff]
  intro i hi
  rw [getLsbD_packCommand _ _ _ _ _ _ _ hi]
  interval_cases i <;> simp

theorem getPixel (index : BitVec 16) : Statement (.getPixel index) := by
  simp only [Statement, encode, Instr.op, Op.row, and_mask_eq_iff]
  intro i hi
  rw [getLsbD_packCommand _ _ _ _ _ _ _ hi]
  interval_cases i <;> simp

theorem update : Statement .update := by unfold Statement; decide

theorem lutRead (n : Nibble) : Statement (.lutRead n) := by
  simp only [Statement, encode, Instr.op, Op.row, and_mask_eq_iff]
  intro i hi
  rw [getLsbD_packCommand _ _ _ _ _ _ _ hi]
  interval_cases i <;> simp

end Sys2Proof.Laws.FixedBits
end

