-- ==== Sys2Proof/Laws/Run.lean ====
section
/-!
SUPPORT. Runs of the machine: a run peeled by one step, two runs in a row, and the step a listed move takes.
-/

namespace Sys2Proof.Machine

section AnyCore

variable (M : Host.Core) {s t : M.State}

theorem coreRun_succ (n : Nat) (h : M.step s = .next t) : M.run (n + 1) s = M.run n t := by
  simp only [Host.Core.run, h]

theorem coreRun_add (n k : Nat) (h : M.run n s = .next t) : M.run (n + k) s = M.run k t := by
  induction n generalizing s with
  | zero =>
    obtain rfl : s = t := by simpa [Host.Core.run] using h
    rw [Nat.zero_add]
  | succ n ih =>
    rw [show n + 1 + k = (n + k) + 1 by omega]
    cases hs : M.step s with
    | next u =>
      rw [coreRun_succ M _ hs] at h ⊢
      exact ih h
    | fault f => simp [Host.Core.run, hs] at h
    | refused r => simp [Host.Core.run, hs] at h

/-- What every step keeps, a run keeps. -/
theorem coreRun_keeps (P : M.State → Prop) (hP : ∀ u v, P u → M.step u = .next v → P v) (n : Nat) (hs : P s)
    (h : M.run n s = .next t) : P t := by
  induction n generalizing s with
  | zero => obtain rfl : s = t := by simpa [Host.Core.run] using h
            exact hs
  | succ n ih =>
    cases hstep : M.step s with
    | next u => exact ih (hP s u hs hstep) (by rwa [coreRun_succ M n hstep] at h)
    | fault f => simp [Host.Core.run, hstep] at h
    | refused r => simp [Host.Core.run, hstep] at h

end AnyCore

/-- A run of no step. -/
theorem run_zero (s : State) : Host.Core.run Sys2Proof.core 0 s = .next s := rfl

/-- A run whose first step answers a next state goes on from it. -/
theorem run_succ {s t : State} (n : Nat) (h : step s = .next t) :
    Host.Core.run Sys2Proof.core (n + 1) s = Host.Core.run Sys2Proof.core n t := coreRun_succ Sys2Proof.core n h

/-- Two runs in a row are one. -/
theorem run_add {s t : State} (n k : Nat) (h : Host.Core.run Sys2Proof.core n s = .next t) :
    Host.Core.run Sys2Proof.core (n + k) s = Host.Core.run Sys2Proof.core k t := coreRun_add Sys2Proof.core n k h

/-- The first listed move is the one taken, and it is used up. -/
theorem step_withMoves (s : State) (m : Move) (ms : List Move) :
    step (s.withMoves (m :: ms)) = moveStep m (s.withMoves ms) := rfl

/-- The colours the latest encode pass has read after `n` steps from `s`, given those it had read before them. -/
def samplesAlong : Nat → State → List Color → List Color
  | 0, _, cs => cs
  | n + 1, s, cs =>
      match step s with
      | .next t    => samplesAlong n t (s.sampled cs)
      | .fault _   => cs
      | .refused _ => cs

/-- What a run from a reachable state reaches is reachable, with the colours sampled along it. -/
theorem reachable_run {c : Params} (n : Nat) {s t : State} {cs : List Color} (hs : Reachable c s cs)
    (h : Host.Core.run Sys2Proof.core n s = .next t) : Reachable c t (samplesAlong n s cs) := by
  induction n generalizing s cs with
  | zero => obtain rfl : s = t := Host.Outcome.next.inj h
            exact hs
  | succ n ih =>
    cases hstep : step s with
    | next u =>
      rw [run_succ n hstep] at h
      simpa [samplesAlong, hstep] using ih (.step s u cs hs hstep) h
    | fault f => exact absurd h (by simp [Host.Core.run, show Sys2Proof.core.step s = .fault f from hstep])
    | refused r => exact absurd h (by simp [Host.Core.run, show Sys2Proof.core.step s = .refused r from hstep])

end Sys2Proof.Machine
end

