-- ==== Sys2Proof/Machine/Assembler.lean ====
section
/-!
DEFINITION. The assembler's text (spec/30_encoding.md R123, R124): a line's characters to tokens, tokens to a line of
Syntax.lean, and a line to its port and command word. Blanks between tokens, and hex digits of either case, are this
model's reading of R123 (log entry 12).
-/

namespace Sys2Proof.Machine

/-- A token of a line: a word (a mnemonic, a model letter, a number or a port name) or a separator. -/
inductive Token where
  | word (cs : List Char)
  | comma
  | colon
deriving DecidableEq, Repr

/-- The characters of a word. -/
def wordChar (c : Char) : Bool :=
  ('0' ≤ c && c ≤ '9') || ('a' ≤ c && c ≤ 'z') || ('A' ≤ c && c ≤ 'Z') || c == '_'

/-- The word read so far, its last character first, put before the tokens that follow it. -/
def closeWord (acc : List Char) (ts : List Token) : List Token :=
  if acc = [] then ts else .word acc.reverse :: ts

/-- The tokens of a line; a character that belongs to no token is an error. -/
def lexLine : List Char → List Char → Option (List Token)
  | acc, [] => some (closeWord acc [])
  | acc, c :: cs =>
      if wordChar c then lexLine (c :: acc) cs
      else if c = ' ' ∨ c = '\t' then (lexLine [] cs).map (closeWord acc)
      else if c = ',' then (lexLine [] cs).map fun ts => closeWord acc (.comma :: ts)
      else if c = ':' then (lexLine [] cs).map fun ts => closeWord acc (.colon :: ts)
      else none

/-- The value of a decimal digit. -/
def decimalDigit (c : Char) : Option Nat :=
  if '0' ≤ c ∧ c ≤ '9' then some (c.toNat - 48) else none

/-- The value of a hex digit. -/
def hexDigit (c : Char) : Option Nat :=
  if '0' ≤ c ∧ c ≤ '9' then some (c.toNat - 48)
  else if 'a' ≤ c ∧ c ≤ 'f' then some (c.toNat - 87)
  else if 'A' ≤ c ∧ c ≤ 'F' then some (c.toNat - 55)
  else none

/-- The value of digits in a base, most significant first, `n` the value of those before them. -/
def digitsValue (base : Nat) (digit : Char → Option Nat) : Nat → List Char → Option Nat
  | n, [] => some n
  | n, c :: cs => (digit c).bind fun d => digitsValue base digit (base * n + d) cs

/-- A decimal number: at least one digit. -/
def decimalNumber (cs : List Char) : Option Nat :=
  if cs = [] then none else digitsValue 10 decimalDigit 0 cs

/-- A number, decimal or `0x` hex (R123). -/
def number : List Char → Option Nat
  | '0' :: 'x' :: cs => if cs = [] then none else digitsValue 16 hexDigit 0 cs
  | cs => decimalNumber cs

/-- The operands after the first, each behind a comma. -/
def moreOperands : List Token → Option (List (List Char))
  | [] => some []
  | .comma :: .word w :: ts => (moreOperands ts).map (w :: ·)
  | _ => none

/-- The operands of a command, separated by commas. -/
def operands : List Token → Option (List (List Char))
  | [] => some []
  | .word w :: ts => (moreOperands ts).map (w :: ·)
  | _ => none

/-- The model letter of INIT. -/
def modelLetter : List Char → Option StripModel
  | ['A'] => some .modelA
  | ['B'] => some .modelB
  | _ => none

/-- INIT's two operands. -/
def initLine : List (List Char) → Option AsmOp
  | [m, count] => (modelLetter m).bind fun m => (number count).map (.init m)
  | _ => none

/-- SET_PIXEL's four operands. -/
def setPixelLine : List (List Char) → Option AsmOp
  | [index, r, g, b] =>
      (number index).bind fun index => (number r).bind fun r => (number g).bind fun g =>
        (number b).map (.setPixel index r g)
  | _ => none

/-- FILL_ALL's three operands. -/
def fillAllLine : List (List Char) → Option AsmOp
  | [r, g, b] => (number r).bind fun r => (number g).bind fun g => (number b).map (.fillAll r g)
  | _ => none

/-- The one operand of GET_PIXEL, LUT_READ and OFF. -/
def oneOperandLine (make : Nat → AsmOp) : List (List Char) → Option AsmOp
  | [n] => (number n).map make
  | _ => none

/-- A command without operands. -/
def noOperandLine (a : AsmOp) : List (List Char) → Option AsmOp
  | [] => some a
  | _ => none

/-- The command of a mnemonic and its operands: the table of R123 and the pseudo-commands of R124. -/
def commandLine (m : List Char) (ops : List (List Char)) : Option AsmOp :=
  if m = ['I', 'N', 'I', 'T'] then initLine ops
  else if m = ['T', 'E', 'A', 'R', 'D', 'O', 'W', 'N'] then noOperandLine .teardown ops
  else if m = ['S', 'E', 'T', '_', 'P', 'I', 'X', 'E', 'L'] then setPixelLine ops
  else if m = ['F', 'I', 'L', 'L', '_', 'A', 'L', 'L'] then fillAllLine ops
  else if m = ['G', 'E', 'T', '_', 'P', 'I', 'X', 'E', 'L'] then oneOperandLine .getPixel ops
  else if m = ['U', 'P', 'D', 'A', 'T', 'E'] then noOperandLine .update ops
  else if m = ['L', 'U', 'T', '_', 'R', 'E', 'A', 'D'] then oneOperandLine .lutRead ops
  else if m = ['F', 'I', 'L', 'L', '_', 'B', 'L', 'A', 'C', 'K'] then noOperandLine .fillBlack ops
  else if m = ['O', 'F', 'F'] then oneOperandLine .off ops
  else none

/-- A mnemonic and its operands. -/
def commandOf : List Token → Option AsmOp
  | .word m :: ts => (operands ts).bind (commandLine m)
  | _ => none

/-- The port number of a port name `p<N>`. -/
def portName : List Char → Option Nat
  | 'p' :: cs => decimalNumber cs
  | _ => none

/-- A line: a command, optionally behind its port and a colon (R123). -/
def lineOfTokens : List Token → Option AsmLine
  | .word p :: .colon :: ts =>
      (portName p).bind fun n => (commandOf ts).map fun a => { port := some n, op := a }
  | ts => (commandOf ts).map fun a => { port := none, op := a }

/-- A line of text. -/
def parseLine (text : List Char) : Option AsmLine := (lexLine [] text).bind lineOfTokens

/-- The port a line of text names, if it names one, and its command word; nothing where the line is an assembly
error: it does not parse, an operand is out of its field's range, or the port is none of the block's (R123). -/
def assembleText (c : Params) (text : List Char) : Option (Option Nat × CmdWord) :=
  (parseLine text).bind fun l => if l.wellFormed c then l.op.assemble.map fun w => (l.port, w) else none

end Sys2Proof.Machine
end

