-- ==== Sys2Proof/Tests/Slice0.lean ====
section
/-!
SUPPORT. The model's own tests. Expected values are from spec/95_test_vectors.md (V1 .. V64, S1 .. S9) and the rules
cited, never from the model. The `witness_` theorems show, for each statement with hypotheses, concrete states and
operands that meet them together.
-/

namespace Sys2Proof.Tests

open Sys2Proof Sys2Proof.Machine

/-! ## The checks of the syntax -/

/-- R123: an operand just out of its field's range is refused, each one on its own. -/
theorem test_wellFormed_refuses_operands :
    (AsmOp.init .modelA 65536).wellFormed = false ∧ (AsmOp.setPixel 65536 0 0 0).wellFormed = false ∧
    (AsmOp.setPixel 0 256 0 0).wellFormed = false ∧ (AsmOp.setPixel 0 0 256 0).wellFormed = false ∧
    (AsmOp.setPixel 0 0 0 256).wellFormed = false ∧ (AsmOp.fillAll 256 0 0).wellFormed = false ∧
    (AsmOp.fillAll 0 256 0).wellFormed = false ∧ (AsmOp.fillAll 0 0 256).wellFormed = false ∧
    (AsmOp.getPixel 65536).wellFormed = false ∧ (AsmOp.lutRead 16).wellFormed = false ∧
    (AsmOp.off 65536).wellFormed = false := by decide

/-- R123: the greatest operand of each field is accepted. -/
theorem test_wellFormed_accepts_bounds :
    (AsmOp.init .modelB 65535).wellFormed = true ∧ (AsmOp.setPixel 65535 255 255 255).wellFormed = true ∧
    (AsmOp.fillAll 255 255 255).wellFormed = true ∧ (AsmOp.getPixel 65535).wellFormed = true ∧
    (AsmOp.lutRead 15).wellFormed = true ∧ (AsmOp.off 65535).wellFormed = true := by decide

/-- R123: a line's port is one of the block's. -/
theorem test_wellFormed_port :
    (AsmLine.mk (some 2) .update).wellFormed (Params.ofCapacity 2 4 3200000) = false ∧
    (AsmLine.mk (some 1) .update).wellFormed (Params.ofCapacity 2 4 3200000) = true ∧
    (AsmLine.mk none (.lutRead 16)).wellFormed (Params.ofCapacity 2 4 3200000) = false := by decide

/-- R8: parameters out of range, each on its own. -/
theorem test_params_legal :
    (Params.mk 0 4 55 3200000).legal = false ∧ (Params.mk 2 65536 55 3200000).legal = false ∧
    (Params.mk 2 4 3 3200000).legal = false ∧ (Params.mk 1 65535 4 3200000).legal = true ∧
    Config.params.legal = true := by decide

/-- The canonical form refuses a repeated and a falling index. -/
theorem test_memory_wf :
    Memory.wf [(1, 0#16), (1, 0#16)] = false ∧ Memory.wf [(2, 0#16), (1, 0#16)] = false ∧
    Memory.wf [(1, 0#16), (2, 0#16)] = true := by decide

/-! ## The encoding -/

/-- The words of V10, V30, V34, V35, V42, V44, V48 and V51, written out from R101 and R106. -/
theorem test_decode_words :
    decode 0x0000000000060001#64 = .ok (.init .modelA 6) ∧
    decode 0x0000000000010101#64 = .ok (.init .modelB 1) ∧
    decode 0x0000000000000002#64 = .ok .teardown ∧
    decode 0x008000FF00030003#64 = .ok (.setPixel 3 { r := 0xFF, g := 0x00, b := 0x80 }) ∧
    decode 0x0030201000000004#64 = .ok (.fillAll { r := 0x10, g := 0x20, b := 0x30 }) ∧
    decode 0x00000000FFFF0005#64 = .ok (.getPixel 65535) ∧
    decode 0x0000000000000006#64 = .ok .update ∧
    decode 0x0000000000090007#64 = .ok (.lutRead 9) := by decide

/-- V63 and V64: the greatest operands are legal encodings. -/
theorem test_decode_greatest_operands :
    decode 0x00000000FFFF0101#64 = .ok (.init .modelB 65535) ∧
    decode 0x00FFFFFFFFFF0003#64 = .ok (.setPixel 65535 { r := 0xFF, g := 0xFF, b := 0xFF }) := by decide

/-- V57, V58 and V59: OP 0, 8 and 15 are reserved. -/
theorem test_decode_reserved_op :
    decode 0x0000000000000000#64 = .error .reservedOp ∧ decode 0x0000000000000008#64 = .error .reservedOp ∧
    decode 0x000000000000000F#64 = .error .reservedOp := by decide

/-- V60, V61, V62, V18, V37, V40, V47 and V55: a must-be-zero bit is set, in each field of R101. -/
theorem test_decode_must_be_zero :
    decode 0x8000000000000006#64 = .error .mustBeZeroBitSet ∧
    decode 0x0000000000000106#64 = .error .mustBeZeroBitSet ∧
    decode 0x0000000000000012#64 = .error .mustBeZeroBitSet ∧
    decode 0x0000000000100007#64 = .error .mustBeZeroBitSet ∧
    decode 0x0000000000000103#64 = .error .mustBeZeroBitSet ∧
    decode 0x0000000000010004#64 = .error .mustBeZeroBitSet ∧
    decode 0x0000000100030001#64 = .error .mustBeZeroBitSet ∧
    decode 0x0000000000000016#64 = .error .mustBeZeroBitSet := by decide

/-- The words of V10, V30, V34, V35, V44, V48 and V51, from the encoder. -/
theorem test_encode_words :
    encode (.init .modelB 1) = 0x0000000000010101#64 ∧ encode .teardown = 0x0000000000000002#64 ∧
    encode (.setPixel 3 { r := 0xFF, g := 0x00, b := 0x80 }) = 0x008000FF00030003#64 ∧
    encode (.fillAll { r := 0x10, g := 0x20, b := 0x30 }) = 0x0030201000000004#64 ∧
    encode (.getPixel 65535) = 0x00000000FFFF0005#64 ∧ encode .update = 0x0000000000000006#64 ∧
    encode (.lutRead 9) = 0x0000000000090007#64 := by decide

/-- R124: the pseudo-commands are the commands they stand for, black in every channel. -/
theorem test_assemble_pseudo :
    AsmOp.fillBlack.assemble = some 0x0000000000000004#64 ∧
    (AsmOp.off 3).assemble = some 0x0000000000030003#64 ∧ (AsmOp.off 65536).assemble = none := by decide

/-- The host's reading of a table word. -/
theorem test_decodeTableWord :
    decodeTableWord 64 0x0000000000020101 = some (.init .modelB 2) ∧ decodeTableWord 64 0 = none := by decide

/-! ## Sample states -/

/-- Two ports, four LEDs: `TXBUF_WORDS = 55`. -/
def small : Params := Params.ofCapacity 2 4 3200000

/-- The colour of V23. -/
def sampleColor : Color := { r := 0x12, g := 0x34, b := 0x56 }

/-- The ten words of V23. -/
def sampleFrame : List Symbol :=
  [0x0000#16, 0x7711#16, 0x1171#16, 0x7111#16, 0x1711#16, 0x7171#16, 0x1771#16, 0x0000#16, 0x0000#16, 0x0000#16]

/-- The entries `0 .. n-1` of an array that begins with these words. -/
def entries {α : Type} (ws : List α) : Memory α := (List.range ws.length).zip ws

/-- No instance, with these port states. -/
def uninit (ports : List PortState) : State := { State.powerOn small with ports := ports }

/-- Model A with one pixel, `sampleColor`, and an idle engine. -/
def ready (ports : List PortState) : State :=
  { uninit ports with
    life := .ready, ledCount := 1, tcfg := true, pixel := [(0, sampleColor)] }

/-- Model A with `n` black pixels. -/
def strip (n : Nat) (ports : List PortState) : State :=
  { uninit ports with
    life := .ready, ledCount := BitVec.ofNat 16 n, tcfg := true, pixel := entries (List.replicate n Color.black) }

/-- `ready` with port 0's update in flight, at this phase, the first `n` words of its frame written. -/
def busyAt (ph : Phase) (n : Nat) (wire : List WireEvent) : State :=
  { ready [.updating, .pending 0x0000000000000006#64] with
    busy := true, owner := 0, phase := ph, txbuf := entries (sampleFrame.take n), wire := wire }

/-- The next state of an outcome. -/
def after (o : Host.Outcome State Fault Refusal) : Option State :=
  match o with
  | .next t => some t
  | .fault _ => none
  | .refused _ => none

/-- The response on port 0 in the next state. -/
def answer (o : Host.Outcome State Fault Refusal) : Option PortState := (after o).bind fun t => t.ports[0]?

/-! ## The assembler's text -/

/-- R124's worked examples, V16 and a pseudo-command, with and without a port. -/
theorem test_assembleText :
    assembleText small "p1: SET_PIXEL 0, 0x12, 0x34, 0x56".toList = some (some 1, 0x0056341200000003#64) ∧
    assembleText small "INIT B, 2".toList = some (none, 0x0000000000020101#64) ∧
    assembleText small "LUT_READ 0xF".toList = some (none, 0x00000000000F0007#64) ∧
    assembleText small "p0: OFF 3".toList = some (some 0, 0x0000000000030003#64) := by decide

/-- R123: a nibble of 16, a port past the last, a missing operand, an operand too many and a word that is no
mnemonic are assembly errors. -/
theorem test_assembleText_errors :
    assembleText small "LUT_READ 16".toList = none ∧ assembleText small "p2: UPDATE".toList = none ∧
    assembleText small "INIT A,".toList = none ∧ assembleText small "UPDATE 1".toList = none ∧
    assembleText small "DRAW 1".toList = none := by decide

/-! ## `State.Inv`, checked on a concrete state -/

/-- An entry is written exactly when its index is listed. -/
theorem isSome_read {α : Type} (m : Memory α) (k : Nat) : (m.read k).isSome = decide (k ∈ m.map Prod.fst) := by
  induction m with
  | nil => rfl
  | cons e m ih =>
    obtain ⟨a, x⟩ := e
    rw [Memory.read_cons]
    by_cases h : k = a
    · simp [h]
    · simp [h, ih]

/-- `State.Inv` as a computation. -/
def invChecks (s : State) : Bool :=
  s.params.legal && decide (s.ports.length = s.params.nPorts) && s.pixel.wf && s.txbuf.wf &&
  decide (s.pixel.map Prod.fst = List.range s.leds) &&
  (s.txbuf.map Prod.fst).all (fun k => decide (k < s.txWords) && decide (s.life = .ready)) &&
  (decide (s.life = .ready) || (!s.busy && decide (s.model = .modelA) && decide (s.ledCount = 0))) &&
  decide (s.tcfg = decide (s.life = .ready)) && decide (s.leds ≤ s.params.maxLeds) &&
  decide (s.txWords ≤ s.params.txbufWords) && s.phaseLegal && decide (s.owner < s.params.nPorts) &&
  (!s.busy || decide (s.ports[s.owner]? = some .updating)) &&
  (List.range s.ports.length).all
    (fun p => decide (s.ports[p]? ≠ some .updating) || (s.busy && decide (p = s.owner))) &&
  s.ports.all
    (fun q => match q with
      | .filling _ i => decide (i < s.leds)
      | .idle => true
      | .pending _ => true
      | .updating => true
      | .done _ => true) &&
  (List.range s.encodedWords).all fun j => (s.txbuf.read j).isSome

/-- The computation decides the invariant. -/
theorem inv_of_checks {s : State} (h : invChecks s = true) : s.Inv := by
  simp only [invChecks, Bool.and_eq_true, Bool.or_eq_true, decide_eq_true_eq, List.all_eq_true, List.mem_range,
    List.mem_map, Bool.not_eq_true'] at h
  obtain ⟨⟨⟨⟨⟨⟨⟨⟨⟨⟨⟨⟨⟨⟨⟨h1, h2⟩, h3⟩, h4⟩, h5⟩, h6⟩, h7⟩, h8⟩, h9⟩, h10⟩, h11⟩, h12⟩, h13⟩, h14⟩, h15⟩, h16⟩ := h
  constructor
  · exact h1
  · exact h2
  · exact h3
  · exact h4
  · intro i; rw [isSome_read, h5]; simp
  · intro k hk
    rw [isSome_read, decide_eq_true_eq] at hk
    exact h6 k (by simpa using hk)
  · intro hu; simpa [hu, and_assoc] using h7
  · exact h8
  · exact h9
  · exact fun _ => h10
  · exact h11
  · exact h12
  · intro hb; exact h13.resolve_left (by simp [hb])
  · intro p hp
    exact (h14 p (List.getElem?_eq_some_iff.mp hp).1).resolve_left (by simp [hp])
  · intro p c i hp; simpa using h15 _ (List.mem_of_getElem? hp)
  · exact h16

/-- The sample states meet the invariant: no instance, a fill half done, a pending UPDATE, every engine phase, the
first word not yet taken and the last one taken; and strips of no pixel and of `MAX_LEDS`. -/
theorem test_sample_states_inv :
    (uninit [.idle, .pending 0#64]).Inv ∧ (ready [.pending 0x0000000000000006#64, .idle]).Inv ∧
    (ready [.filling sampleColor 0, .done 0#32]).Inv ∧ (busyAt .encHead 0 []).Inv ∧ (busyAt (.encPix 0) 1 []).Inv ∧
    (busyAt .encTail 7 []).Inv ∧ (busyAt (.tx 0) 10 []).Inv ∧ (busyAt (.tx 10) 10 []).Inv ∧
    (strip 0 [.pending 0x0000000000000006#64, .idle]).Inv ∧ (strip 4 [.idle, .filling sampleColor 3]).Inv :=
  ⟨inv_of_checks (by decide), inv_of_checks (by decide), inv_of_checks (by decide), inv_of_checks (by decide),
   inv_of_checks (by decide), inv_of_checks (by decide), inv_of_checks (by decide), inv_of_checks (by decide),
   inv_of_checks (by decide), inv_of_checks (by decide)⟩

/-- A state that breaks R48 item 2 or item 5 does not pass. -/
theorem test_invChecks_refuses :
    invChecks { busyAt .encHead 0 [] with busy := false } = false ∧ invChecks (busyAt (.tx 0) 9 []) = false := by decide

/-! ## The commands, one step each -/

/-- V42 and V44: INIT opens the instance, at the capacity's edge (`TX_WORDS = TXBUF_WORDS`), every pixel black. -/
theorem test_init_opens :
    (after (exec (.init .modelA 6) (State.powerOn (Params.mk 1 10 40 3200000)))).map
      (fun t => (t.life, t.txWords, t.pixel.read 5, t.pixel.read 6))
      = some (.ready, 40, some Color.black, none) ∧
    (after (exec (.init .modelB 1) (State.powerOn (Params.mk 1 10 40 3200000)))).map
      (fun t => (t.model, t.leds, t.txWords, t.ports)) = some (.modelB, 1, 37, [.done 0x00000000#32]) := by decide

/-- V41, V43, V49, V45 and V46: INIT's refusals, the capacity before the transport. -/
theorem test_init_refusals :
    answer (exec (.init .modelA 11) (State.powerOn (Params.mk 1 10 40 3200000))) = some (.done 0x00000002#32) ∧
    answer (exec (.init .modelB 6) (State.powerOn (Params.mk 1 10 40 3200000))) = some (.done 0x00000002#32) ∧
    answer (exec (.init .modelA 11) ((State.powerOn (Params.mk 1 10 40 3200000)).setDraw { port := 0, tok := false }))
      = some (.done 0x00000002#32) ∧
    answer (exec (.init .modelB 1) ((State.powerOn (Params.mk 1 10 40 3200000)).setDraw { port := 0, tok := false }))
      = some (.done 0x00000003#32) ∧
    answer (exec (.init .modelA 3) (ready [.idle, .idle])) = some (.done 0x00000005#32) := by decide

/-- P4 step 4 and R276: TEARDOWN releases both buffers. -/
theorem test_teardown :
    (after (exec .teardown { ready [.idle, .idle] with txbuf := entries sampleFrame })).map
      (fun t => (t.life, t.pixel.length, t.txbuf.length, t.ports)) = some (.uninit, 0, 0, [.done 0x00000000#32, .idle]) := by
  decide

/-- V48 and V50, and R275 for a fill in flight. -/
theorem test_teardown_refused :
    answer (exec .teardown (uninit [.idle])) = some (.done 0x00000005#32) ∧
    answer (exec .teardown { busyAt (.tx 3) 10 [] with ports := [.idle, .updating], owner := 1 })
      = some (.done 0x00000005#32) ∧
    answer (exec .teardown (ready [.idle, .filling sampleColor 0])) = some (.done 0x00000005#32) := by decide

/-- V30: SET_PIXEL of the last entry. -/
theorem test_setPixel :
    (after (exec (.setPixel 3 { r := 0xFF, g := 0x00, b := 0x80 }) (strip 4 [.idle]))).map
      (fun t => (t.pixel.read 3, t.pixel.read 2, t.ports))
      = some (some { r := 0xFF, g := 0x00, b := 0x80 }, some Color.black, [.done 0x00000000#32]) := by decide

/-- V31, V32 and V38: SET_PIXEL past the strip. -/
theorem test_setPixel_outOfRange :
    (after (exec (.setPixel 5 sampleColor) (strip 4 [.idle]))).map (fun t => (t.pixel, t.ports))
      = some ((strip 4 [.idle]).pixel, [.done 0x00000001#32]) ∧
    answer (exec (.setPixel 4 sampleColor) (strip 4 [.idle])) = some (.done 0x00000001#32) ∧
    answer (exec (.setPixel 0 { r := 1, g := 2, b := 3 }) (strip 0 [.idle])) = some (.done 0x00000001#32) := by decide

/-- V38 and V35: FILL_ALL of no pixel is done at once; else it starts at index 0 and writes nothing yet. -/
theorem test_fillAll :
    answer (exec (.fillAll { r := 1, g := 2, b := 3 }) (strip 0 [.idle])) = some (.done 0x00000000#32) ∧
    (after (exec (.fillAll { r := 0x10, g := 0x20, b := 0x30 }) (strip 4 [.idle]))).map (fun t => (t.pixel.read 0, t.ports))
      = some (some Color.black, [.filling { r := 0x10, g := 0x20, b := 0x30 } 0]) := by decide

/-- V35: the last of the four fill steps responds. -/
theorem test_fillStep :
    (after (moveStep (.port 0 true) (strip 4 [.filling { r := 0x10, g := 0x20, b := 0x30 } 3]))).map
      (fun t => (t.pixel.read 3, t.pixel.read 2, t.ports))
      = some (some { r := 0x10, g := 0x20, b := 0x30 }, some Color.black, [.done 0x00000000#32]) ∧
    answer (moveStep (.port 0 true) (strip 4 [.filling sampleColor 2])) = some (.filling sampleColor 3) := by decide

/-- V33 and P2 step 4: GET_PIXEL, the channels in their bits of the response. -/
theorem test_getPixel :
    answer (exec (.getPixel 0) { strip 1 [.idle] with pixel := [(0, { r := 0xFF, g := 0x00, b := 0x80 })] })
      = some (.done 0x8000FF00#32) ∧
    answer (exec (.getPixel 0) { strip 1 [.idle] with pixel := [(0, { r := 0xA5, g := 0x0F, b := 0xF0 })] })
      = some (.done 0xF00FA500#32) := by decide

/-- V34 and V39: GET_PIXEL past the strip, and with no instance. -/
theorem test_getPixel_refused :
    answer (exec (.getPixel 65535) (strip 4 [.idle])) = some (.done 0x00000001#32) ∧
    answer (exec (.getPixel 0) (uninit [.idle])) = some (.done 0x00000005#32) := by decide

/-- P3 step 2 and V39: UPDATE takes the gate, and is refused with no instance. -/
theorem test_update :
    (after (exec .update (ready [.idle, .pending 0x0000000000000006#64]))).map
      (fun t => (t.busy, t.owner, t.phase, t.ports))
      = some (true, 0, .encHead, [.updating, .pending 0x0000000000000006#64]) ∧
    answer (exec .update (uninit [.idle])) = some (.done 0x00000005#32) := by decide

/-- V56: UPDATE on port 1 while port 0's is in flight has no step. -/
theorem test_update_held :
    (after (moveStep (.port 1 true) (busyAt (.tx 3) 10 []))).map (fun t => (t.owner, t.phase, t.ports))
      = some (0, .tx 3, [.updating, .pending 0x0000000000000006#64]) := by decide

/-- V1, V10, V12 and V16, on a block just reset (V17). -/
theorem test_lutRead :
    answer (exec (.lutRead 0) (uninit [.idle])) = some (.done 0x11110000#32) ∧
    answer (exec (.lutRead 9) (uninit [.idle])) = some (.done 0x71170000#32) ∧
    answer (exec (.lutRead 11) (uninit [.idle])) = some (.done 0x77170000#32) ∧
    answer (exec (.lutRead 15) (uninit [.idle])) = some (.done 0x77770000#32) := by decide

/-- `withFetchWord` places a command that the next step runs (V44 with LED_COUNT 2). -/
theorem test_withFetchWord :
    (after (step (State.reset.withFetchWord 64 0x0000000000020101))).map
      (fun t => (t.life, t.model, t.leds, t.ports))
      = some (.ready, .modelB, 2, [.done 0x00000000#32, .idle]) := by decide

/-! ## The engine, the transport and the line -/

/-- V20: `TX_WORDS`. -/
theorem test_sizes :
    frameWordCount .modelA 0 = 4 ∧ frameWordCount .modelA 3 = 22 ∧ frameWordCount .modelA 65535 = 393214 ∧
    frameWordCount .modelB 0 = 31 ∧ frameWordCount .modelB 2 = 43 ∧ frameWordCount .modelB 65535 = 393241 := by decide

/-- V21, V23, V25 and V26 (its first seven words). -/
theorem test_frames :
    frame .modelA [] = List.replicate 4 0x0000#16 ∧ frame .modelA [sampleColor] = sampleFrame ∧
    frame .modelA [{ r := 0xFF, g := 0x00, b := 0x80 }] =
      [0x0000#16, 0x1111#16, 0x1111#16, 0x7777#16, 0x7777#16, 0x1117#16, 0x1111#16, 0x0000#16, 0x0000#16, 0x0000#16] ∧
    (frame .modelB [{ r := 0xFF, g := 0x00, b := 0x80 }]).take 7 =
      [0x0000#16, 0x7777#16, 0x7777#16, 0x1111#16, 0x1111#16, 0x1117#16, 0x1111#16] := by decide

/-- V27: two pixels of Model B. -/
theorem test_frame_modelB :
    frame .modelB [sampleColor, { r := 0xA5, g := 0x0F, b := 0xF0 }] =
      [0x0000#16, 0x7111#16, 0x1711#16, 0x7711#16, 0x1171#16, 0x7171#16, 0x1771#16, 0x1717#16, 0x7171#16, 0x1111#16,
       0x7777#16, 0x7777#16, 0x1111#16] ++ List.replicate 30 0x0000#16 := by decide

/-- V21: with no pixel `ENC_HEAD` goes to `ENC_TAIL`; with one it goes to `ENC_PIX(0)`. -/
theorem test_encHead :
    (after (moveStep .engine { strip 0 [.updating] with busy := true, phase := .encHead })).map
      (fun t => (t.txbuf, t.phase)) = some ([(0, 0x0000#16)], .encTail) ∧
    (after (moveStep .engine (busyAt .encHead 0 []))).map (fun t => (t.txbuf, t.phase))
      = some ([(0, 0x0000#16)], .encPix 0) := by decide

/-- V23 and V51: `ENC_PIX(0)` and `ENC_TAIL` write the rest of the frame and hand it over. -/
theorem test_encPix_encTail :
    (after (moveStep .engine (busyAt (.encPix 0) 1 []))).map (fun t => (t.txbuf, t.phase))
      = some (entries (sampleFrame.take 7), .encTail) ∧
    (after (moveStep .engine (busyAt .encTail 7 []))).map (fun t => (t.txbuf, t.phase, t.wire))
      = some (entries sampleFrame, .tx 0, [.frameStart 160]) := by decide

/-- V51: word 3 of the frame. -/
theorem test_transportWord :
    (after (moveStep .transportWord (busyAt (.tx 3) 10 []))).map (fun t => (t.wire, t.phase))
      = some ([.word 3 0x7111#16], .tx 4) := by decide

/-- V51, V53 and V54: completion with OK after the last word, with TRANSMIT_ERROR after seven, and none with OK at
`k = 9`. -/
theorem test_transportEnd :
    (after (moveStep (.transportEnd true) (busyAt (.tx 10) 10 []))).map (fun t => (t.wire, t.phase, t.ports[0]?))
      = some ([.frameEnd .ok], .idle, some (.done 0x00000000#32)) ∧
    (after (moveStep (.transportEnd false) (busyAt (.tx 7) 10 []))).map (fun t => (t.wire, t.phase, t.ports[0]?))
      = some ([.frameEnd .transmitError], .idle, some (.done 0x00000004#32)) ∧
    (after (moveStep (.transportEnd true) (busyAt (.tx 9) 10 []))).map (fun t => (t.wire, t.phase, t.ports[0]?))
      = some ([], .tx 9, some .updating) := by decide

/-- V4, V9 and V19: the line slots of symbols. -/
theorem test_slots :
    slots 0x7711#16 = [true, false, false, false, true, false, false, false, true, true, true, false,
      true, true, true, false] ∧
    slots 0x1117#16 = [true, true, true, false, true, false, false, false, true, false, false, false,
      true, false, false, false] ∧
    slots 0x0000#16 = List.replicate 16 false := by decide

/-- V29: the low run at the end of a Model A frame, last blue channel `0xFF` and `0x00`. -/
theorem test_low_run :
    trailingLow (lineOf (frame .modelA [{ r := 0, g := 0, b := 0xFF }])) = 49 ∧
    trailingLow (lineOf (frame .modelA [{ r := 0, g := 0, b := 0x00 }])) = 51 := by decide

/-- R75: word 0x7711 is byte 0x11, then byte 0x77. -/
theorem test_byte_view : symbolBytes 0x7711#16 = [0x11#8, 0x77#8] := by decide

/-- R351: the slot, the protocol bit, the symbol, the pixel and the two low runs at 3.2 MHz, in nanoseconds. -/
theorem test_durations :
    slotsNanoseconds 3200000 1 = 312.5 ∧ slotsNanoseconds 3200000 4 = 1250 ∧ slotsNanoseconds 3200000 16 = 5000 ∧
    slotsNanoseconds 3200000 96 = 30000 ∧ slotsNanoseconds 3200000 49 = 15312.5 ∧
    slotsNanoseconds 3200000 481 = 150312.5 := by norm_num [slotsNanoseconds]

/-- R316 and log entry 7: outside R45 and R38 every step but reset faults, whoever takes it: an updating port while the gate is free,
a second one beside the owner, a fill at the strip's end, and a PHASE that is not IDLE while the gate is free. -/
theorem test_outside_the_rules :
    moveStep (.take 1) (ready [.updating, .done 0#32]) = .fault .portOutsideRules ∧
    moveStep .engine { busyAt .encHead 0 [] with ports := [.updating, .updating] } = .fault .portOutsideRules ∧
    moveStep (.port 0 true) (strip 4 [.filling sampleColor 4, .idle]) = .fault .portOutsideRules ∧
    moveStep (.port 1 true) { busyAt .encHead 0 [] with busy := false } = .fault .phaseOutsideRules := ⟨rfl, rfl, rfl, rfl⟩

/-- R246: the line is low before the first frame (here 2 slots) and after a frame (here 3). -/
theorem test_lineHistory :
    (ready [.idle, .idle]).lineHistory (fun _ => 2) = [false, false] ∧
    { ready [.idle, .idle] with wire := [.frameStart 16, .word 0 0x7711#16, .frameEnd .ok] }.lineHistory
      (fun n => if n = 0 then 0 else 3) = slots 0x7711#16 ++ [false, false, false] := by decide

/-- R246, R239 and I13: the line rests, carries a frame, rests again; after a block reset it may be anything. -/
theorem test_lineNow :
    (ready [.idle, .idle]).lineNow = .idle ∧ (busyAt (.tx 1) 10 [.frameStart 160, .word 0 0x0000#16]).lineNow = .sending ∧
    { ready [.idle, .idle] with wire := [.frameStart 160, .frameEnd .transmitError] }.lineNow = .idle ∧
    { uninit [.idle, .idle] with wire := [.frameStart 160, .reset] }.lineNow = .afterReset := by decide

/-! ## Witnesses: encoding and steps -/

/-- The word 6, UPDATE. -/
def updateWord : CmdWord := 0x0000000000000006#64

theorem witness_EncodeOfDecodeIsTheWord : decode 0x00FFFFFFFFFF0003#64 =
    .ok (.setPixel 65535 { r := 0xFF, g := 0xFF, b := 0xFF }) ∧ decode 0x00000000FFFF0101#64 = .ok (.init .modelB 65535) := by
  decide

theorem witness_OperandsComeFromTheirFields :
    (∃ m n, decode 0x00000000FFFF0101#64 = .ok (.init m n)) ∧ (∃ i c, decode 0x00FFFFFFFFFF0003#64 = .ok (.setPixel i c)) ∧
    (∃ c, decode 0x00FFFFFF00000004#64 = .ok (.fillAll c)) ∧ (∃ i, decode 0x00000000FFFF0005#64 = .ok (.getPixel i)) ∧
    (∃ n, decode 0x00000000000F0007#64 = .ok (.lutRead n)) :=
  ⟨⟨_, _, rfl⟩, ⟨_, _, rfl⟩, ⟨_, rfl⟩, ⟨_, rfl⟩, ⟨_, rfl⟩⟩

/-- The edges of the reserved range of OP, and of the range of a set must-be-zero bit (V62 and V18). -/
theorem witness_ReservedEncodingsAreIllegal :
    (0x0000000000000000#64).extractLsb' 0 4 = 0x0#4 ∧ 0x8#4 ≤ (0x0000000000000008#64).extractLsb' 0 4 ∧
    0x8#4 ≤ (0x000000000000000F#64).extractLsb' 0 4 ∧ 0x1#4 ≤ (0x0000000000000011#64).extractLsb' 0 4 ∧
    (0x0000000000100007#64).extractLsb' 0 4 ≤ 0x7#4 ∧
    (∀ op : Op, 0x0000000000000011#64 &&& op.row.mask ≠ op.row.pattern) ∧
    (∀ op : Op, 0x0000000000100007#64 &&& op.row.mask ≠ op.row.pattern) :=
  ⟨by decide, by decide, by decide, by decide, by decide, fun op => by cases op <;> decide,
   fun op => by cases op <;> decide⟩

theorem witness_AssemblerNeverTruncates :
    (AsmOp.init .modelB 65535).assemble = some 0x00000000FFFF0101#64 ∧
    (AsmOp.setPixel 65535 255 255 255).assemble = some 0x00FFFFFFFFFF0003#64 ∧
    (AsmOp.fillAll 255 0 1).assemble = some 0x000100FF00000004#64 ∧
    (AsmOp.getPixel 65535).assemble = some 0x00000000FFFF0005#64 ∧
    (AsmOp.lutRead 15).assemble = some 0x00000000000F0007#64 ∧
    (AsmOp.init .modelA 65536).assemble = none ∧ (AsmOp.setPixel 65536 0 0 0).assemble = none ∧
    (AsmOp.setPixel 0 256 0 0).assemble = none ∧ (AsmOp.setPixel 0 0 256 0).assemble = none ∧
    (AsmOp.setPixel 0 0 0 256).assemble = none ∧ (AsmOp.fillAll 256 0 0).assemble = none ∧
    (AsmOp.fillAll 0 256 0).assemble = none ∧ (AsmOp.fillAll 0 0 256).assemble = none ∧
    (AsmOp.getPixel 65536).assemble = none ∧ (AsmOp.lutRead 16).assemble = none := by decide

/-- A command on the highest port, with nothing else scheduled. -/
theorem witness_StepRunsThePendingCommand :
    let s := (ready [.idle, .pending updateWord]).withMoves [.port 1 false]
    s.rulesHold = true ∧ s.sched = .port 1 false :: [] ∧ s.ports[1]? = some (.pending updateWord) ∧ decode updateWord = .ok .update := by
  decide

theorem witness_IllegalCommandIsAnswered :
    let s := (ready [.pending 0x0000000000000106#64, .idle]).withMoves [.port 0 true]
    s.rulesHold = true ∧ s.sched = .port 0 true :: [] ∧ s.ports[0]? = some (.pending 0x0000000000000106#64) ∧
    decode 0x0000000000000106#64 = .error .mustBeZeroBitSet := by decide

theorem witness_HostPresentsAndTakes :
    let s := (ready [.idle, .done 0x00000000#32]).withMoves [.present 0 0xFFFFFFFFFFFFFFFF#64]
    let s' := s.withMoves [.take 1]
    s.rulesHold = true ∧ s'.rulesHold = true ∧ s.sched = .present 0 0xFFFFFFFFFFFFFFFF#64 :: [] ∧ s.ports[0]? = some .idle ∧
    s'.sched = .take 1 :: [] ∧ s'.ports[1]? = some (.done 0x00000000#32) := by decide

/-- A move of each agent that has no step: a port not idle, a port not done, a held UPDATE, a port past the last, an
idle engine, a transport past the last word, and completion with OK one word early (V54). -/
theorem witness_DisabledMoveLeavesTheBlock :
    (busyAt (.tx 9) 10 []).Inv ∧ (busyAt (.tx 9) 10 []).enabled (.present 0 updateWord) = false ∧
    (busyAt (.tx 9) 10 []).enabled (.take 0) = false ∧ (busyAt (.tx 9) 10 []).enabled (.port 1 true) = false ∧
    (busyAt (.tx 9) 10 []).enabled (.port 2 true) = false ∧ (busyAt (.tx 9) 10 []).enabled .engine = false ∧
    (busyAt (.tx 9) 10 []).enabled (.transportEnd true) = false ∧
    (busyAt (.tx 10) 10 []).Inv ∧ (busyAt (.tx 10) 10 []).enabled .transportWord = false :=
  ⟨inv_of_checks (by decide), by decide, by decide, by decide, by decide, by decide, by decide,
   inv_of_checks (by decide), by decide⟩

theorem witness_ResetFromAnyState : ((busyAt (.tx 9) 10 []).withMoves [.reset]).sched = .reset :: [] := rfl

theorem witness_PowerOnMeetsTheInvariants :
    small.legal = true ∧ (Params.mk 1 0 4 1).legal = true ∧ (Params.mk 1 65535 393241 1).legal = true := by decide

/-! ## Witnesses: invariants -/

/-- A step of each agent from a state that meets the invariants. -/
theorem witness_StepKeepsTheInvariant :
    ((uninit [.idle, .pending 0x0000000000010001#64]).withMoves [.port 1 true]).Inv ∧
    ((ready [.filling sampleColor 0, .idle]).withMoves [.port 0 true]).Inv ∧
    ((busyAt (.encPix 0) 1 []).withMoves [.engine]).Inv ∧
    ((busyAt (.tx 9) 10 []).withMoves [.transportWord]).Inv ∧
    (∃ t, step ((uninit [.idle, .pending 0x0000000000010001#64]).withMoves [.port 1 true]) = .next t) ∧
    (∃ t, step ((ready [.filling sampleColor 0, .idle]).withMoves [.port 0 true]) = .next t) ∧
    (∃ t, step ((busyAt (.encPix 0) 1 []).withMoves [.engine]) = .next t) ∧
    (∃ t, step ((busyAt (.tx 9) 10 []).withMoves [.transportWord]) = .next t) :=
  ⟨inv_of_checks (by decide), inv_of_checks (by decide), inv_of_checks (by decide), inv_of_checks (by decide),
   ⟨_, rfl⟩, ⟨_, rfl⟩, ⟨_, rfl⟩, ⟨_, rfl⟩⟩

/-- The frame invariant in each phase: nothing to say, a pixel written, all written, and words on WIRE. -/
theorem witness_frameInv :
    (busyAt .encHead 0 []).FrameInv [Color.black] ∧ (busyAt (.encPix 0) 1 []).FrameInv [] ∧
    (busyAt .encTail 7 []).FrameInv [sampleColor] ∧
    (busyAt (.tx 1) 10 [.frameStart 160, .word 0 0x0000#16]).FrameInv [sampleColor] ∧
    (busyAt (.tx 10) 10 (.frameStart 160 :: wordEvents 0 sampleFrame)).FrameInv [sampleColor] :=
  ⟨trivial, ⟨rfl, by unfold State.txbufHolds; decide⟩, ⟨rfl, by unfold State.txbufHolds; decide⟩,
   ⟨rfl, by unfold State.txbufHolds; decide, [], by decide⟩, ⟨rfl, by unfold State.txbufHolds; decide, [], by decide⟩⟩

/-- The frame invariant refuses the frame of other colours: a stale or a mixed buffer does not meet it. -/
theorem test_frameInv_refuses :
    ¬ (busyAt (.tx 10) 10 (.frameStart 160 :: wordEvents 0 sampleFrame)).FrameInv [Color.black] := by
  rintro ⟨-, h, -⟩
  exact absurd (h 1 (by decide)) (by decide)

/-- One step under each clause: a pass starting anew, a pixel read, and a word sent; and a host's step within a pass,
which leaves the colours alone. -/
theorem witness_StepKeepsTheFrameInvariant :
    (let s := (busyAt .encHead 0 []).withMoves [.engine]
     s.Inv ∧ s.FrameInv [Color.black] ∧ s.nextMove = .engine ∧ s.phase = .encHead ∧ ∃ t, step s = .next t) ∧
    (let s := (busyAt (.encPix 0) 1 []).withMoves [.engine]
     s.Inv ∧ s.FrameInv [] ∧ s.nextMove = .engine ∧ s.phase = .encPix 0 ∧ ∃ t, step s = .next t) ∧
    (let s := (busyAt (.tx 1) 10 [.frameStart 160, .word 0 0x0000#16]).withMoves [.transportWord]
     s.Inv ∧ s.FrameInv [sampleColor] ∧ s.nextMove ≠ .engine ∧ ∃ t, step s = .next t) ∧
    (let s := (busyAt (.encPix 0) 1 []).withMoves [.take 1]
     s.Inv ∧ s.FrameInv [] ∧ s.nextMove ≠ .engine ∧ ∃ t, step s = .next t) :=
  ⟨⟨inv_of_checks (by decide), trivial, rfl, rfl, _, rfl⟩,
   ⟨inv_of_checks (by decide), witness_frameInv.2.1, rfl, rfl, _, rfl⟩,
   ⟨inv_of_checks (by decide), witness_frameInv.2.2.2.1, by decide, _, rfl⟩,
   ⟨inv_of_checks (by decide), witness_frameInv.2.1, by decide, _, rfl⟩⟩

theorem witness_StepKeepsResponsesLegal :
    ((ready [.pending updateWord, .done 0x00000006#32]).withMoves [.port 0 true]).ResponsesLegal ∧
    ∃ t, step ((ready [.pending updateWord, .done 0x00000006#32]).withMoves [.port 0 true]) = .next t := by
  refine ⟨?_, _, rfl⟩
  intro p rsp h
  match p with
  | 0 => simp [ready, uninit, State.withMoves] at h
  | 1 =>
    obtain rfl : 0x00000006#32 = rsp := by simpa [ready, uninit, State.withMoves] using h
    decide
  | _ + 2 => simp [ready, uninit, State.withMoves] at h

/-- INIT A, 1, then SET_PIXEL 0 of `sampleColor` and UPDATE, and the engine's first two steps. -/
def openingMoves : List Move :=
  [.present 0 0x0000000000010001#64, .port 0 true, .take 0, .present 0 0x0056341200000003#64, .port 0 true, .take 0,
   .present 0 updateWord, .port 0 true, .engine, .engine]

/-- After the pass has read the pixel, port 1 blackens it; then the tail. -/
def blackenMoves : List Move := [.present 1 0x0000000000000003#64, .port 1 true, .engine]

/-- A reachable state in `TX(0)` whose pass has read a colour that PIXEL no longer holds, and one with no
instance. -/
theorem witness_ReachableStatesMeetTheRules :
    small.legal = true ∧ Reachable small (State.powerOn small) [] ∧
    ∃ s, Reachable small s [sampleColor] ∧ s.life = .ready ∧ s.busy = true ∧ s.phase = .tx 0 ∧ s.leds = 1 ∧
      s.pixel.read 0 = some Color.black :=
  ⟨by decide, .powerOn [], _,
   reachable_run (openingMoves ++ blackenMoves).length (.powerOn (openingMoves ++ blackenMoves)) rfl,
   rfl, rfl, rfl, rfl, rfl⟩

theorem witness_NoStepStops : ((busyAt (.tx 10) 10 []).withMoves [.transportEnd true]).Inv := inv_of_checks (by decide)

/-- The last index in range of each clause, unwritten. -/
theorem witness_UnwrittenReadsFault :
    (let s := { ready [.idle, .idle] with pixel := [] }
     s.rulesHold = true ∧ s.life = .ready ∧ s.leds ≤ s.params.maxLeds ∧ (0#16).toNat < s.leds ∧
       s.pixel.read (0#16).toNat = none) ∧
    (let s := { busyAt (.encPix 0) 1 [] with pixel := [] }
     s.rulesHold = true ∧ s.life = .ready ∧ s.leds ≤ s.params.maxLeds ∧ s.phase = .encPix 0 ∧ s.pixel.read 0 = none) ∧
    (let s := busyAt (.tx 9) 9 []
     s.rulesHold = true ∧ s.life = .ready ∧ s.leds ≤ s.params.maxLeds ∧ s.phase = .tx 9 ∧ 9 < s.txWords ∧
       s.txbuf.read 9 = none) := by decide

/-- Each way to be outside R38, the least index out of range; and outside R45, with PHASE inside R38. -/
theorem witness_UnwrittenReadsFault_outside :
    ({ ready [.idle, .idle] with busy := true }.phase = .idle) ∧
    ({ busyAt .encTail 7 [] with busy := false }.phase ≠ .idle) ∧
    (let s := busyAt (.encPix 1) 7 []; s.phase = .encPix 1 ∧ s.leds ≤ 1) ∧
    (let s := busyAt (.tx 11) 10 []; s.phase = .tx 11 ∧ s.txWords < 11) ∧
    (let s := strip 4 [.idle, .filling sampleColor 4]
     s.phaseLegal = true ∧ s.ports[1]? = some (.filling sampleColor 4) ∧ s.leds ≤ 4) ∧
    (let s := ready [.updating, .idle]; s.phaseLegal = true ∧ s.ports[0]? = some .updating ∧ s.busy = false) ∧
    (let s := { busyAt .encHead 0 [] with ports := [.updating, .updating] }
     s.phaseLegal = true ∧ s.ports[1]? = some .updating ∧ s.owner ≠ 1) := by decide

/-- A run that is over, one in which only hosts can move, and one with an update in flight. -/
theorem witness_RunIsOverExactlyWhenNothingMoves :
    (ready [.done 0x00000000#32, .idle]).Inv ∧ (ready [.done 0x00000000#32, .idle]).runOver = true ∧
    (busyAt (.tx 9) 10 []).Inv ∧ (busyAt (.tx 9) 10 []).runOver = false :=
  ⟨inv_of_checks (by decide), by decide, inv_of_checks (by decide), by decide⟩

theorem witness_NoDeadlock :
    (busyAt (.tx 10) 10 []).Inv ∧ (busyAt (.tx 10) 10 []).runOver = false ∧
    (ready [.idle, .pending updateWord]).Inv ∧ (ready [.idle, .pending updateWord]).runOver = false :=
  ⟨inv_of_checks (by decide), by decide, inv_of_checks (by decide), by decide⟩

/-! ## Witnesses: the Pixel Store -/

/-- The last entry of a strip of `MAX_LEDS`. -/
theorem witness_SetPixelReplacesOneEntry :
    let s := strip 4 [.idle, .idle]
    s.life = .ready ∧ (3#16).toNat < s.leds ∧ s.leds ≤ s.params.maxLeds := by decide

theorem witness_GetPixelAnswersTheColour :
    let s := ready [.idle, .idle]
    s.life = .ready ∧ (0#16).toNat < s.leds ∧ s.leds ≤ s.params.maxLeds ∧ s.pixel.read (0#16).toNat = some sampleColor := by
  decide

theorem witness_FillAllIsAccepted :
    (strip 0 [.idle, .idle]).life = .ready ∧ (strip 0 [.idle, .idle]).leds = 0 ∧
    (strip 1 [.idle, .idle]).life = .ready ∧ 0 < (strip 1 [.idle, .idle]).leds := by decide

/-- The last step of a fill and the one before it. -/
theorem witness_FillStepWritesOneEntry :
    (let s := (strip 4 [.filling sampleColor 3, .idle]).withMoves [.port 0 true]
     s.rulesHold = true ∧ s.sched = .port 0 true :: [] ∧ s.ports[0]? = some (.filling sampleColor 3) ∧
       s.leds ≤ s.params.maxLeds ∧ 3 + 1 = s.leds) ∧
    (let s := (strip 4 [.filling sampleColor 2, .idle]).withMoves [.port 0 true]
     s.rulesHold = true ∧ s.sched = .port 0 true :: [] ∧ s.ports[0]? = some (.filling sampleColor 2) ∧
       s.leds ≤ s.params.maxLeds ∧ 2 + 1 ≠ s.leds) := by
  decide

theorem witness_FillRunsToItsEnd :
    let s := strip 4 [.idle, .filling sampleColor 0]
    s.rulesHold = true ∧ s.ports[1]? = some (.filling sampleColor 0) ∧ s.leds ≤ s.params.maxLeds := by decide

theorem witness_NoInstanceIsStateError : (uninit [.idle, .idle]).life = .uninit := rfl

/-- The first index past a strip, and index 0 past an empty one (V38). -/
theorem witness_IndexPastTheStripIsOutOfRange :
    (strip 4 [.idle, .idle]).life = .ready ∧ (strip 4 [.idle, .idle]).leds ≤ (4#16).toNat ∧
    (strip 0 [.idle, .idle]).life = .ready ∧ (strip 0 [.idle, .idle]).leds ≤ (0#16).toNat := by decide

/-- A step that gives an entry a new colour, by each of the three ways. -/
theorem witness_PixelsChangeOnlyByTheirCommands :
    (∃ t, step ((strip 4 [.pending 0x0056341200030003#64, .idle]).withMoves [.port 0 true]) = .next t ∧
      t.pixel.read 3 = some sampleColor ∧ (strip 4 [.idle, .idle]).pixel.read 3 ≠ some sampleColor) ∧
    (∃ t, step ((strip 4 [.filling sampleColor 3, .idle]).withMoves [.port 0 true]) = .next t ∧
      t.pixel.read 3 = some sampleColor) ∧
    (∃ t, step ((uninit [.pending 0x0000000000010001#64, .idle]).withMoves [.port 0 true]) = .next t ∧
      t.pixel.read 0 = some Color.black ∧ (uninit [.idle, .idle]).pixel.read 0 ≠ some Color.black) :=
  ⟨⟨_, rfl, by decide, by decide⟩, ⟨_, rfl, by decide⟩, ⟨_, rfl, by decide, by decide⟩⟩

theorem witness_FailedCommandChangesOnlyItsPort :
    ∃ t, exec (.setPixel 4 sampleColor) (strip 4 [.idle, .idle]) = .next t ∧
      t.ports[(strip 4 [.idle, .idle]).draw.port]? = some (.done 0x00000001#32) ∧
      (0x00000001#32).extractLsb' 0 4 ≠ 0#4 := ⟨_, rfl, by decide, by decide⟩

theorem witness_CommandTouchesNoOtherPort :
    (∃ t, exec .update (ready [.idle, .done 0x00000000#32]) = .next t) ∧
    1 ≠ (ready [.idle, .done 0x00000000#32]).draw.port := ⟨⟨_, rfl⟩, by decide⟩

/-! ## Witnesses: the lifecycle -/

/-- V42 and V44, the first at both capacities' edge but one. -/
theorem witness_InitOpensTheInstance :
    (let s := State.powerOn (Params.mk 1 6 40 3200000)
     s.life = .uninit ∧ (6#16).toNat ≤ s.params.maxLeds ∧
       6 * (6#16).toNat + (if StripModel.modelA = .modelA then 3 else 30) + 1 ≤ s.params.txbufWords ∧ s.draw.tok = true) ∧
    (let s := State.powerOn (Params.mk 1 1 37 3200000)
     s.life = .uninit ∧ (1#16).toNat ≤ s.params.maxLeds ∧
       6 * (1#16).toNat + (if StripModel.modelB = .modelA then 3 else 30) + 1 ≤ s.params.txbufWords ∧ s.draw.tok = true) := by
  decide

/-- V46; V41 and V43, each capacity exceeded by the least; V45. -/
theorem witness_InitRefusalsInOrder :
    (ready [.idle, .idle]).life = .ready ∧
    (let s := State.powerOn (Params.mk 1 10 100 3200000)
     s.life = .uninit ∧ s.params.maxLeds < (11#16).toNat) ∧
    (let s := State.powerOn (Params.mk 1 10 36 3200000)
     s.life = .uninit ∧ s.params.txbufWords < 6 * (1#16).toNat + (if StripModel.modelB = .modelA then 3 else 30) + 1) ∧
    (let s := (State.powerOn (Params.mk 1 1 37 3200000)).setDraw { port := 0, tok := false }
     s.life = .uninit ∧ (1#16).toNat ≤ s.params.maxLeds ∧
       6 * (1#16).toNat + (if StripModel.modelB = .modelA then 3 else 30) + 1 ≤ s.params.txbufWords ∧
       s.draw.tok = false) := by decide

/-- A held UPDATE elsewhere does not keep TEARDOWN from running. -/
theorem witness_TeardownReleasesEverything :
    (ready [.pending 0x0000000000000002#64, .pending updateWord]).life = .ready ∧
    (ready [.pending 0x0000000000000002#64, .pending updateWord]).busy = false ∧
    ∀ (q : Nat) (c : Color) (i : Nat),
      (ready [.pending 0x0000000000000002#64, .pending updateWord]).ports[q]? ≠ some (.filling c i) := by
  refine ⟨rfl, rfl, ?_⟩
  intro q c i
  match q with
  | 0 => simp [ready, uninit]
  | 1 => simp [ready, uninit]
  | _ + 2 => simp [ready, uninit]

theorem witness_TeardownIsRefused :
    (uninit [.idle, .idle]).life = .uninit ∧ (busyAt (.tx 3) 10 []).busy = true ∧
    ∃ (q : Nat) (c : Color) (i : Nat), (ready [.idle, .filling sampleColor 0]).ports[q]? = some (.filling c i) :=
  ⟨rfl, rfl, 1, sampleColor, 0, rfl⟩

theorem witness_ModelAndCountAreFixed :
    ∃ t, step ((busyAt (.tx 10) 10 []).withMoves [.transportEnd true]) = .next t ∧
      (busyAt (.tx 10) 10 []).life = .ready ∧ t.life = .ready := ⟨_, rfl, rfl, rfl⟩

/-! ## Witnesses: the Transmit Gate -/

theorem witness_UpdateTakesTheGate :
    (ready [.pending updateWord, .idle]).life = .ready ∧ (ready [.pending updateWord, .idle]).busy = false := by decide

theorem witness_UpdateIsHeldWhileTheGateIsTaken :
    let s := (busyAt (.tx 10) 10 []).withMoves [.port 1 true]
    s.rulesHold = true ∧ s.sched = .port 1 true :: [] ∧ s.ports[1]? = some (.pending updateWord) ∧ decode updateWord = .ok .update ∧
    s.life = .ready ∧ s.busy = true := by decide

theorem witness_OnlyAnUpdateTakesTheGate :
    ∃ t, step ((ready [.idle, .pending updateWord]).withMoves [.port 1 true]) = .next t ∧
      (ready [.idle, .pending updateWord]).busy = false ∧ t.busy = true := ⟨_, rfl, rfl, rfl⟩

/-- By reset, by OK and by TRANSMIT_ERROR. -/
theorem witness_GateIsReleasedOnlyAtTheEnd :
    (busyAt (.tx 10) 10 []).busy = true ∧ (busyAt (.tx 0) 10 []).busy = true ∧
    (∃ t, step ((busyAt (.tx 10) 10 []).withMoves [.reset]) = .next t ∧ t.busy = false) ∧
    (∃ t, step ((busyAt (.tx 10) 10 []).withMoves [.transportEnd true]) = .next t ∧ t.busy = false) ∧
    (∃ t, step ((busyAt (.tx 0) 10 []).withMoves [.transportEnd false]) = .next t ∧ t.busy = false) :=
  ⟨rfl, rfl, ⟨_, rfl, rfl⟩, ⟨_, rfl, rfl⟩, ⟨_, rfl, rfl⟩⟩

/-- A step that leaves the update going, one that resets and one that ends it. -/
theorem witness_UpdatingPortWaitsForItsTransmission :
    ((busyAt (.encPix 0) 1 []).withMoves [.engine]).Inv ∧
    ((busyAt (.tx 0) 10 []).withMoves [.transportEnd false]).Inv ∧
    ((busyAt (.encPix 0) 1 []).withMoves [.engine]).ports[0]? = some .updating ∧
    ((busyAt (.tx 0) 10 []).withMoves [.transportEnd false]).ports[0]? = some .updating ∧
    (∃ t, step ((busyAt (.encPix 0) 1 []).withMoves [.engine]) = .next t) ∧
    (∃ t, step ((busyAt (.tx 0) 10 []).withMoves [.transportEnd false]) = .next t) :=
  ⟨inv_of_checks (by decide), inv_of_checks (by decide), by decide, by decide, ⟨_, rfl⟩, ⟨_, rfl⟩⟩

/-! ## Witnesses: the engine, the transport and the line -/

/-- Two pixels, so that `j` and `i` take every value of their range. -/
theorem witness_FrameLayout :
    [sampleColor, Color.black][1]? = some Color.black ∧ 2 < 3 ∧ 2 < (if StripModel.modelA = .modelA then 3 else 30) ∧
    29 < (if StripModel.modelB = .modelA then 3 else 30) := by decide

theorem witness_FrameHasTheSizingFormulasLength :
    (ready [.idle, .idle]).leds = [sampleColor].length ∧ (strip 0 [.idle, .idle]).leds = ([] : List Color).length := by
  decide

theorem witness_EncHeadAndTailWriteTheZeroWords :
    ((busyAt .encHead 0 []).withMoves [.engine]).sched = .engine :: [] ∧ (busyAt .encHead 0 []).rulesHold = true ∧
    (busyAt .encHead 0 []).capacityHolds ∧ (busyAt .encHead 0 []).phase = .encHead ∧
    ((busyAt .encTail 7 []).withMoves [.engine]).sched = .engine :: [] ∧ (busyAt .encTail 7 []).rulesHold = true ∧
    (busyAt .encTail 7 []).capacityHolds ∧ (busyAt .encTail 7 []).phase = .encTail ∧
    2 < (busyAt .encTail 7 []).resetWords := by
  unfold State.capacityHolds; decide

theorem witness_EncPixWritesSixWords :
    let s := (busyAt (.encPix 0) 1 []).withMoves [.engine]
    s.rulesHold = true ∧ s.sched = .engine :: [] ∧ s.phase = .encPix 0 ∧ s.pixel.read 0 = some sampleColor ∧
    s.capacityHolds := by
  unfold State.capacityHolds; decide

theorem witness_EncodePassWritesTheFrame :
    (busyAt .encHead 0 []).Inv ∧ (busyAt .encHead 0 []).phase = .encHead ∧
    (busyAt .encHead 0 []).pixelsAre [sampleColor] :=
  ⟨inv_of_checks (by decide), rfl, rfl, by decide⟩

theorem witness_TransportTakesWordsInOrder :
    let s := (busyAt (.tx 9) 10 []).withMoves [.transportWord]
    s.rulesHold = true ∧ s.sched = .transportWord :: [] ∧ s.phase = .tx 9 ∧ 9 < s.txWords ∧
    s.txbuf.read 9 = some 0x0000#16 := by decide

/-- OK after the last word, TRANSMIT_ERROR before the first, and OK one word early. -/
theorem witness_TransmissionCompletes :
    (let s := (busyAt (.tx 10) 10 []).withMoves [.transportEnd true]
     s.rulesHold = true ∧ s.sched = .transportEnd true :: [] ∧ s.phase = .tx 10 ∧ 10 = s.txWords ∧
       s.ports[s.owner]? = some .updating) ∧
    (let s := (busyAt (.tx 0) 10 []).withMoves [.transportEnd false]
     s.rulesHold = true ∧ s.sched = .transportEnd false :: [] ∧ s.phase = .tx 0 ∧
       s.ports[s.owner]? = some .updating) ∧
    (let s := (busyAt (.tx 9) 10 []).withMoves [.transportEnd true]
     s.rulesHold = true ∧ s.sched = .transportEnd true :: [] ∧ s.phase = .tx 9 ∧ 9 ≠ s.txWords ∧
       s.ports[s.owner]? = some .updating) := by decide

theorem witness_TransmissionSendsEachWordOnceInOrder :
    (busyAt (.tx 0) 10 []).Inv ∧ (busyAt (.tx 0) 10 []).phase = .tx 0 ∧
    sampleFrame.length = (busyAt (.tx 0) 10 []).txWords ∧ (busyAt (.tx 0) 10 []).txbufHolds sampleFrame ∧
    10 = (busyAt (.tx 0) 10 []).txWords :=
  ⟨inv_of_checks (by decide), rfl, by decide, by unfold State.txbufHolds; decide, by decide⟩

theorem witness_UpdateSendsTheFrameOfThePixels :
    (ready [.idle, .pending updateWord]).Inv ∧ (ready [.idle, .pending updateWord]).life = .ready ∧
    (ready [.idle, .pending updateWord]).busy = false ∧
    (ready [.idle, .pending updateWord]).ports[1]? = some (.pending updateWord) ∧ decode updateWord = .ok .update ∧
    (ready [.idle, .pending updateWord]).pixelsAre [sampleColor] :=
  ⟨inv_of_checks (by decide), rfl, rfl, rfl, by decide, rfl, by decide⟩

theorem witness_OnlyTheEngineWritesTxbuf :
    ∃ t, step ((busyAt (.encPix 0) 1 []).withMoves [.engine]) = .next t ∧ t.txbuf.read 6 = some 0x1771#16 ∧
      (busyAt (.encPix 0) 1 []).txbuf.read 6 ≠ some 0x1771#16 := ⟨_, rfl, by decide, by decide⟩

/-- A reachable state with the whole frame taken, the pixel blackened while its old colour was on its way, and
completion with OK next. -/
theorem witness_CompletedFrameIsOneEncodePass :
    small.legal = true ∧ ∃ s, Reachable small s [sampleColor] ∧ s.busy = true ∧ s.nextMove = .transportEnd true ∧
      s.pixel.read 0 = some Color.black ∧ ∃ t, step s = .next t ∧ t.busy = false :=
  ⟨by decide, _,
   reachable_run (openingMoves ++ blackenMoves ++ List.replicate 10 Move.transportWord).length
     (.powerOn (openingMoves ++ blackenMoves ++ List.replicate 10 .transportWord ++ [.transportEnd true])) rfl,
   rfl, rfl, rfl, _, rfl, rfl⟩

theorem witness_WireIsAppendOnly :
    ∃ t, step ((busyAt .encTail 7 []).withMoves [.engine]) = .next t := ⟨_, rfl⟩

theorem witness_WordAndByteViewsSendTheSameSlots : sampleFrame[9]? = some 0x0000#16 ∧ 15 < 16 := by decide

theorem witness_LowRunOfTheResetGap : [sampleColor] ≠ [] := by decide

end Sys2Proof.Tests
end

