-- ==== Sys2Proof/Proofs/Encoding.lean ====
section
/-!
PROOFS. The statements about the decoder (spec/30_encoding.md R103, R107): what a word that decodes says of its mask
and match, and of its operands.
-/

namespace Sys2Proof

/-- The row's test, as the equation R107 writes. -/
theorem Row.accepts_iff (r : Row) (w : CmdWord) : r.accepts w = true ↔ w &&& r.mask = r.pattern := by
  simp [Row.accepts]

/-- R107 and R109 in one: the commands a word decodes to are those whose mask and match it meets, with the word's own
fields for operands. -/
theorem decode_eq_ok_iff {w : CmdWord} {i : Instr} :
    decode w = .ok i ↔ w &&& i.op.row.mask = i.op.row.pattern ∧ i = operandsOf i.op w := by
  rw [← Row.accepts_iff]
  constructor
  · exact decode_eq_ok w i
  · rintro ⟨hacc, hops⟩
    rw [decode_of_accepts w i.op hacc, ← hops]

theorem mask_of_decode {w : CmdWord} {i : Instr} (h : decode w = .ok i) :
    w &&& i.op.row.mask = i.op.row.pattern :=
  (decode_eq_ok_iff.mp h).1

theorem operands_of_decode {w : CmdWord} {i : Instr} (h : decode w = .ok i) : i = operandsOf i.op w :=
  (decode_eq_ok_iff.mp h).2

theorem decode_of_mask {w : CmdWord} (op : Op) (h : w &&& op.row.mask = op.row.pattern) :
    decode w = .ok (operandsOf op w) :=
  decode_of_accepts w op ((Row.accepts_iff _ _).mpr h)

theorem modelField_eq_modelB_iff (w : CmdWord) : modelField w = .modelB ↔ w.getLsbD 8 = true := by
  unfold modelField
  split
  next hbit => exact iff_of_true rfl hbit
  next hbit => exact iff_of_false (by decide) hbit

/-- Settles O3: `mask_of_decode` one way and `decode_of_mask` the other, row by row; the numbers of each row are those
of the model's own table. -/
theorem commandIffMaskAndMatch : Obligations.CommandIffMaskAndMatch := by
  intro w
  refine ⟨?init, ?teardown, ?setPixel, ?fillAll, ?getPixel, ?update, ?lutRead⟩
  case init => exact ⟨fun ⟨_, _, h⟩ => mask_of_decode h, fun h => ⟨_, _, decode_of_mask .init h⟩⟩
  case teardown => exact ⟨mask_of_decode, decode_of_mask .teardown⟩
  case setPixel => exact ⟨fun ⟨_, _, h⟩ => mask_of_decode h, fun h => ⟨_, _, decode_of_mask .setPixel h⟩⟩
  case fillAll => exact ⟨fun ⟨_, h⟩ => mask_of_decode h, fun h => ⟨_, decode_of_mask .fillAll h⟩⟩
  case getPixel => exact ⟨fun ⟨_, h⟩ => mask_of_decode h, fun h => ⟨_, decode_of_mask .getPixel h⟩⟩
  case update => exact ⟨mask_of_decode, decode_of_mask .update⟩
  case lutRead => exact ⟨fun ⟨_, h⟩ => mask_of_decode h, fun h => ⟨_, decode_of_mask .lutRead h⟩⟩

/-- Settles O4: a decoded command is `operandsOf` its word (`operands_of_decode`), and each operand there is its field
of R103. -/
theorem operandsComeFromTheirFields : Obligations.OperandsComeFromTheirFields := by
  intro w
  refine ⟨?init, ?setPixel, ?fillAll, ?getPixel, ?lutRead⟩
  case init =>
    intro m n h
    obtain ⟨rfl, rfl⟩ := Instr.init.inj (operands_of_decode h)
    exact ⟨rfl, modelField_eq_modelB_iff w⟩
  case setPixel =>
    intro index c h
    obtain ⟨rfl, rfl⟩ := Instr.setPixel.inj (operands_of_decode h)
    exact ⟨rfl, rfl, rfl, rfl⟩
  case fillAll =>
    intro c h
    obtain rfl := Instr.fillAll.inj (operands_of_decode h)
    exact ⟨rfl, rfl, rfl⟩
  case getPixel =>
    intro index h
    exact Instr.getPixel.inj (operands_of_decode h)
  case lutRead =>
    intro n h
    exact Instr.lutRead.inj (operands_of_decode h)

end Sys2Proof
end

