-- ==== Sys2Proof/Proofs/TimingTable.lean ====
section
/-!
PROOFS. The statements about the Timing Table (spec/40_timing_lut.md R141-R143): the lanes of a symbol, and the bit
slots that the symbols of a list of nibbles put on the line.
-/

namespace Sys2Proof.Machine

section Lanes

open BitVec (extractLsb'_append_eq_of_le extractLsb'_append_eq_left extractLsb'_append_eq_right)

/-- R141's lane rule. `v` is the width of the lanes above the one passed over. -/
theorem lut_lane (n : Nibble) {k : Nat} (hk : k < 4) :
    (lut n).extractLsb' (4 * k) 4 = subSymbol (n.getLsbD (3 - k)) := by
  unfold lut
  match k with
  | 0 => exact extractLsb'_append_eq_right
  | 1 =>
    rw [extractLsb'_append_eq_of_le (v := 12) (by decide)]
    exact extractLsb'_append_eq_right
  | 2 =>
    rw [extractLsb'_append_eq_of_le (v := 12) (by decide), extractLsb'_append_eq_of_le (v := 8) (by decide)]
    exact extractLsb'_append_eq_right
  | 3 =>
    rw [extractLsb'_append_eq_of_le (v := 12) (by decide), extractLsb'_append_eq_of_le (v := 8) (by decide)]
    exact extractLsb'_append_eq_left

end Lanes

/-- Bit 0 is sent first (R74), so the low part of a value goes out before its high part. -/
theorem slots_append {m n : Nat} (hi : BitVec m) (lo : BitVec n) : slots (hi ++ lo) = slots lo ++ slots hi := by
  have low : ∀ i ∈ List.range n, (hi ++ lo).getLsbD i = lo.getLsbD i := fun i h => by
    simp [BitVec.getLsbD_append, List.mem_range.mp h]
  have high : ∀ i, (hi ++ lo).getLsbD (n + i) = hi.getLsbD i := by simp [BitVec.getLsbD_append]
  have parts : List.range (m + n) = List.range n ++ (List.range m).map (n + ·) := by
    rw [Nat.add_comm, List.range_add]
  simp [slots, parts, high, List.map_congr_left low]

/-- R142. -/
@[simp] theorem slots_subSymbol (b : Bool) : slots (subSymbol b) = pulse b := by cases b <;> rfl

/-- R143 for one symbol: nibble bit 3 stands in the lowest lane, which is sent first. -/
theorem slots_lut (n : Nibble) :
    slots (lut n) = pulse (n.getLsbD 3) ++ pulse (n.getLsbD 2) ++ pulse (n.getLsbD 1) ++ pulse (n.getLsbD 0) := by
  unfold lut
  rw [slots_append (m := 12), slots_append (m := 8), slots_append (m := 4)]
  simp only [slots_subSymbol, List.append_assoc]

/-- Settles O57: symbol by symbol, the slots are the nibble's pulses (`slots_lut`). -/
theorem symbolsAreTheirNibblesPulses : Obligations.SymbolsAreTheirNibblesPulses := by
  intro ns
  calc lineOf (ns.map lut)
    _ = ns.flatMap fun n => slots (lut n) := List.flatMap_map ..
    _ = _ := List.flatMap_congr fun n _ => slots_lut n

/-- Settles O23: the lane rule is `lut_lane`; the sixteen constants are the table evaluated. -/
theorem timingTableByLanes : Obligations.TimingTableByLanes :=
  ⟨fun n _ hk => lut_lane n hk, by decide⟩

end Sys2Proof.Machine
end

