-- ==== Sys2Proof/Proofs/FrameEncoder.lean ====
section
/-!
PROOFS. The statements about the Frame Encoder (spec/42_frame_encoder.md R191-R196): where each word of the frame
stands, and what one encode step writes.
-/

namespace Sys2Proof.Machine

section Blocks

variable {α β : Type} {f : α → List β} {n : Nat}

/-- Blocks of one length, put one after another. -/
theorem length_flatMap_of_blocks (hf : ∀ a, (f a).length = n) (l : List α) :
    (l.flatMap f).length = n * l.length := by
  simp [List.length_flatMap, hf, Nat.mul_comm]

/-- Word `k` of block `i` stands `n * i + k` words in. -/
theorem getElem?_flatMap_of_blocks (hf : ∀ a, (f a).length = n) {l : List α} {i k : Nat} {a : α}
    (hi : l[i]? = some a) (hk : k < n) : (l.flatMap f)[n * i + k]? = (f a)[k]? := by
  induction l generalizing i with
  | nil => simp at hi
  | cons b l ih =>
    rw [List.flatMap_cons]
    cases i with
    | zero =>
      obtain rfl : b = a := by simpa using hi
      rw [Nat.mul_zero, Nat.zero_add, List.getElem?_append_left (by rw [hf]; exact hk)]
    | succ i =>
      have hnext : n * (i + 1) + k = n + (n * i + k) := by ring
      rw [hnext, List.getElem?_append_right (by rw [hf]; omega), hf, Nat.add_sub_cancel_left]
      exact ih (by simpa using hi)

end Blocks

/-! ## The words of a pixel and of a frame -/

@[simp] theorem length_pixelSymbols (m : StripModel) (c : Color) : (pixelSymbols m c).length = 6 := by
  cases m <;> rfl

/-- R191's six words are those that R195 writes out. -/
theorem pixelSymbols_eq_sixWords (m : StripModel) (c : Color) : pixelSymbols m c = sixWords m c := by
  cases m <;> rfl

/-- R44's order column: blue is last in both models, and Model A has green first. -/
theorem channelOrder_getElem? (m : StripModel) {j : Nat} (hj : j < 3) :
    (channelOrder m)[j]? = some (if j = 2 then .blue else if (j = 0 ↔ m = .modelA) then .green else .red) := by
  cases m <;> interval_cases j <;> rfl

/-- The two words of the channel in place `j` of the order. -/
theorem pixelSymbols_getElem? {m : StripModel} {j k : Nat} {ch : Channel} (c : Color)
    (hj : (channelOrder m)[j]? = some ch) (hk : k < 2) :
    (pixelSymbols m c)[2 * j + k]? = (channelSymbols (ch.of c))[k]? := by
  have hpairs : ∀ ch : Channel, (channelSymbols (ch.of c)).length = 2 := fun _ => rfl
  exact getElem?_flatMap_of_blocks hpairs hj hk

theorem length_flatMap_pixelSymbols (m : StripModel) (cs : List Color) :
    (cs.flatMap (pixelSymbols m)).length = 6 * cs.length :=
  length_flatMap_of_blocks (length_pixelSymbols m) cs

theorem length_frame (m : StripModel) (cs : List Color) :
    (frame m cs).length = 6 * cs.length + resetDelay m + 1 := by
  rw [frame, List.length_cons, List.length_append, length_flatMap_pixelSymbols, List.length_replicate]

theorem frame_getElem?_zero (m : StripModel) (cs : List Color) : (frame m cs)[0]? = some 0#16 := rfl

/-- Pixel `i` begins after the leading zero word and `i` pixels. -/
theorem frame_getElem?_pixel (m : StripModel) {cs : List Color} {i k : Nat} {c : Color} (hi : cs[i]? = some c)
    (hk : k < 6) : (frame m cs)[1 + 6 * i + k]? = (pixelSymbols m c)[k]? := by
  have hcount : i < cs.length := (List.getElem?_eq_some_iff.mp hi).1
  rw [frame, show 1 + 6 * i + k = 6 * i + k + 1 by omega, List.getElem?_cons_succ,
    List.getElem?_append_left (by rw [length_flatMap_pixelSymbols]; omega)]
  exact getElem?_flatMap_of_blocks (length_pixelSymbols m) hi hk

/-- The reset gap begins after the leading zero word and all the pixels. -/
theorem frame_getElem?_gap (m : StripModel) (cs : List Color) {k : Nat} (hk : k < resetDelay m) :
    (frame m cs)[1 + 6 * cs.length + k]? = some 0#16 := by
  rw [frame, show 1 + 6 * cs.length + k = 6 * cs.length + k + 1 by omega, List.getElem?_cons_succ,
    ← length_flatMap_pixelSymbols m cs, List.getElem?_append_right (Nat.le_add_right ..), Nat.add_sub_cancel_left,
    List.getElem?_replicate_of_lt hk]

/-- R44's reset delays, as the statements write them. -/
theorem resetDelay_eq_ite (m : StripModel) : resetDelay m = if m = .modelA then 3 else 30 := by cases m <;> rfl

/-- Settles O45: the frame is its leading word, blocks of six words and the gap (`length_frame`,
`frame_getElem?_pixel`, `frame_getElem?_gap`), and a block is three pairs of words in the model's order. -/
theorem frameLayout : Obligations.FrameLayout := by
  intro m cs
  rw [← resetDelay_eq_ite]
  refine ⟨length_frame m cs, frame_getElem?_zero m cs, ?pixels, fun k hk => frame_getElem?_gap m cs hk⟩
  case pixels =>
    intro i c j hi hj
    have hch := channelOrder_getElem? m hj
    refine ⟨_, rfl, ?high, ?low⟩
    case high => exact (frame_getElem?_pixel m hi (by omega)).trans (pixelSymbols_getElem? c hch (k := 0) (by decide))
    case low =>
      rw [Nat.add_assoc]
      exact (frame_getElem?_pixel m hi (by omega)).trans (pixelSymbols_getElem? c hch (k := 1) (by decide))

/-! ## The steps of the engine -/

section Reads

variable {α : Type} (m : Memory α) (base : Nat) {vs : List α}

theorem Memory.read_writeAll_written {k : Nat} (hk : k < vs.length) :
    (m.writeAll base vs).read (base + k) = vs[k]? := by
  rw [Memory.read_writeAll, if_pos (by omega), Nat.add_sub_cancel_left]

theorem Memory.read_writeAll_outside {j : Nat} (hj : j < base ∨ base + vs.length ≤ j) :
    (m.writeAll base vs).read j = m.read j := by
  rw [Memory.read_writeAll, if_neg (by omega)]

end Reads

/-- R200's sizing formula, in the order of the frame's parts. -/
theorem State.txWords_eq (s : State) : s.txWords = 1 + 6 * s.leds + s.resetWords := by
  unfold State.txWords frameWordCount State.resetWords
  omega

section EngineSteps

variable {s : State}

theorem engineStep_encHead (hph : s.phase = .encHead) : engineStep s = encHeadStep s := by simp [engineStep, hph]

theorem engineStep_encPix {i : Nat} (hph : s.phase = .encPix i) : engineStep s = encPixStep i s := by
  simp [engineStep, hph]

theorem engineStep_encTail (hph : s.phase = .encTail) : engineStep s = encTailStep s := by simp [engineStep, hph]

theorem writeSymbols_of_fits {k : Nat} {ws : List Symbol} (h : k + ws.length ≤ s.params.txbufWords) :
    writeSymbols s k ws = .ok (s.setTxbuf (s.txbuf.writeAll k ws)) :=
  (writeSymbols_eq_ok ..).mpr ⟨h, rfl⟩

theorem State.index_lt_leds_of_encPix {i : Nat} (hr : s.rulesHold = true) (hph : s.phase = .encPix i) : i < s.leds := by
  have hlegal := (s.rulesHold_iff.mp hr).1
  simp only [State.phaseLegal, hph, Bool.and_eq_true, decide_eq_true_eq] at hlegal
  exact hlegal.2

/-- The writes of `ENC_HEAD` fit (R193). -/
theorem encHeadStep_of_capacityHolds (hcap : s.capacityHolds) :
    encHeadStep s = .next ((s.setTxbuf (s.txbuf.writeAll 0 [0#16])).setPhase
      (if 0 < s.leds then .encPix 0 else .encTail)) := by
  obtain ⟨-, hwords⟩ := hcap
  rw [s.txWords_eq] at hwords
  have hfits : 0 + [0#16].length ≤ s.params.txbufWords := by
    rw [List.length_singleton]; omega
  rw [encHeadStep, writeSymbols_of_fits hfits, proceed_ok]

/-- The read and the writes of `ENC_PIX(i)` fit (R193). -/
theorem encPixStep_of_capacityHolds {i : Nat} {c : Color} (hcap : s.capacityHolds) (hi : i < s.leds)
    (hc : s.pixel.read i = some c) :
    encPixStep i s = .next ((s.setTxbuf (s.txbuf.writeAll (1 + 6 * i) (pixelSymbols s.model c))).setPhase
      (if i + 1 < s.leds then .encPix (i + 1) else .encTail)) := by
  obtain ⟨hleds, hwords⟩ := hcap
  rw [s.txWords_eq] at hwords
  have hread : readPixel s i = .ok c := (readPixel_eq_ok ..).mpr ⟨by omega, hc⟩
  have hfits : 1 + 6 * i + (pixelSymbols s.model c).length ≤ s.params.txbufWords := by
    rw [length_pixelSymbols]; omega
  rw [encPixStep, hread, proceed_ok, writeSymbols_of_fits hfits, proceed_ok]

/-- The writes of `ENC_TAIL` fit (R193). -/
theorem encTailStep_of_capacityHolds (hcap : s.capacityHolds) :
    encTailStep s = .next (((s.setTxbuf (s.txbuf.writeAll (1 + 6 * s.leds)
      (List.replicate s.resetWords 0#16))).emit (.frameStart (16 * s.txWords))).setPhase (.tx 0)) := by
  have hfits : 1 + 6 * s.leds + (List.replicate s.resetWords 0#16).length ≤ s.params.txbufWords := by
    rw [List.length_replicate, ← s.txWords_eq]; exact hcap.2
  rw [encTailStep, writeSymbols_of_fits hfits, proceed_ok]

variable {rest : List Move} (hr : s.rulesHold = true) (hs : s.sched = .engine :: rest)
include hr hs

/-- A listed engine move inside the rules is the engine's step. -/
theorem step_of_engine : step s = engineStep (s.withMoves rest) :=
  (step_of_sched hs).trans (checked_of_rulesHold (s := s.withMoves rest) hr _)

/-- R194. -/
theorem step_encHead (hcap : s.capacityHolds) (hph : s.phase = .encHead) :
    step s = .next { s with
      sched := rest, txbuf := s.txbuf.writeAll 0 [0#16], phase := if 0 < s.leds then .encPix 0 else .encTail } :=
  calc step s
    _ = engineStep (s.withMoves rest) := step_of_engine hr hs
    _ = encHeadStep (s.withMoves rest) := engineStep_encHead hph
    _ = _ := encHeadStep_of_capacityHolds hcap

/-- R195. -/
theorem step_encPix {i : Nat} {c : Color} (hcap : s.capacityHolds) (hph : s.phase = .encPix i)
    (hc : s.pixel.read i = some c) :
    step s = .next { s with
      sched := rest
      txbuf := s.txbuf.writeAll (1 + 6 * i) (pixelSymbols s.model c)
      phase := if i + 1 < s.leds then .encPix (i + 1) else .encTail } :=
  calc step s
    _ = engineStep (s.withMoves rest) := step_of_engine hr hs
    _ = encPixStep i (s.withMoves rest) := engineStep_encPix hph
    _ = _ := encPixStep_of_capacityHolds hcap (State.index_lt_leds_of_encPix hr hph) hc

/-- R196. -/
theorem step_encTail (hcap : s.capacityHolds) (hph : s.phase = .encTail) :
    step s = .next { s with
      sched := rest
      txbuf := s.txbuf.writeAll (1 + 6 * s.leds) (List.replicate s.resetWords 0#16)
      phase := .tx 0
      wire := s.wire ++ [.frameStart (16 * s.txWords)] } :=
  calc step s
    _ = engineStep (s.withMoves rest) := step_of_engine hr hs
    _ = encTailStep (s.withMoves rest) := engineStep_encTail hph
    _ = _ := encTailStep_of_capacityHolds hcap

end EngineSteps

/-- Settles O47: the next states are those of `step_encHead` and `step_encTail`; what TXBUF reads in them is what was
written, or what it read before outside the words written. -/
theorem encHeadAndTailWriteTheZeroWords : Obligations.EncHeadAndTailWriteTheZeroWords := by
  intro s rest hr hs hcap
  refine ⟨fun hph => ⟨_, step_encHead hr hs hcap hph, ?headWord, ?headFrame, rfl⟩,
    fun hph => ⟨_, step_encTail hr hs hcap hph, ?gapWords, ?tailFrame, rfl⟩⟩
  case headWord => exact Memory.read_writeAll_written s.txbuf 0 (vs := [0#16]) (k := 0) (by decide)
  case headFrame =>
    intro k hk
    exact Memory.read_writeAll_outside s.txbuf 0 (.inr (by simpa using Nat.one_le_iff_ne_zero.mpr hk))
  case gapWords =>
    intro k hk
    rw [Memory.read_writeAll_written _ _ (by simpa using hk), List.getElem?_replicate_of_lt hk]
  case tailFrame =>
    intro k hk
    refine Memory.read_writeAll_outside _ _ ?_
    rwa [List.length_replicate, ← s.txWords_eq]

/-- Settles O48: the next state is that of `step_encPix`, whose six words are R195's (`pixelSymbols_eq_sixWords`). -/
theorem encPixWritesSixWords : Obligations.EncPixWritesSixWords := by
  intro s rest i c hr hs hph hc hcap
  refine ⟨_, step_encPix hr hs hcap hph hc, ?words, ?others, rfl⟩
  case words =>
    intro k hk
    rw [← pixelSymbols_eq_sixWords]
    exact Memory.read_writeAll_written _ _ (by simpa using hk)
  case others =>
    intro k hk
    refine Memory.read_writeAll_outside _ _ ?_
    rw [length_pixelSymbols]
    omega

end Sys2Proof.Machine
end

