-- ==== Sys2Proof/Proofs/TransmitGate.lean ====
section
/-!
PROOFS. The statements about the Transmit Gate and the transport's steps (spec/43_transmit_gate.md R234-R237): which
port a step can write, and what the word step answers.
-/

namespace Sys2Proof.Machine

/-- R108 and R235: the owner's response with the transport's status and no data, as the statements write it. -/
theorem responseWord_transmitStatus (ok : Bool) :
    responseWord (transmitStatus ok) 0#28 = if ok then 0x00000000#32 else 0x00000004#32 := by
  cases ok
  · exact responseWord_transmitError
  · exact responseWord_ok_zero

/-! ## The ports -/

/-- What a transition does to the ports: nothing, the write of one port that is not `updating`, a reset, or the
completion's answer to the owner (R234, R238). -/
theorem Effect.ports_cases {s t : State} {m : Move} (h : Effect s m t) :
    t.ports = s.ports ∨
    (∃ (r : Nat) (q q' : PortState), s.ports[r]? = some q ∧ q ≠ .updating ∧ t.ports = s.ports.set r q') ∨
    m = .reset ∨
    ∃ ok, m = .transportEnd ok ∧ (ok = true → s.phase = .tx s.txWords) ∧
      t.ports = s.ports.set s.owner (.done (if ok then 0x00000000#32 else 0x00000004#32)) := by
  cases h with
  | idle | encHead | encPix | encTail | txWord => exact .inl rfl
  | present r _ hr | take r _ hr | refuse r _ _ _ hr | getPixel r _ _ _ _ hr | lutRead r _ _ _ hr
  | setPixel r _ _ _ _ hr | fillNone r _ _ _ hr | fillStart r _ _ _ hr | fillNext r _ _ _ hr
  | fillLast r _ _ _ hr | openInstance r _ _ _ _ hr | closeInstance r _ _ hr | acquire r _ _ hr =>
    exact .inr (.inl ⟨r, _, _, hr, nofun, rfl⟩)
  | txEnd k ok hph _ _ hok =>
    refine .inr (.inr (.inr ⟨ok, rfl, fun h => hok h ▸ hph, ?_⟩))
    rw [← responseWord_transmitStatus]
    rfl
  | reset => exact .inr (.inr (.inl rfl))

/-- Settles O44: by `Effect.ports_cases`, a step that writes the updating port is a reset or the completion, and the
completion answers the owner, which under the invariants is this port. -/
theorem updatingPortWaitsForItsTransmission : Obligations.UpdatingPortWaitsForItsTransmission := by
  intro s t p hinv hp hstep
  obtain ⟨d, heff⟩ := step_effect hstep
  obtain hsame | ⟨r, q, q', hr, hq, hset⟩ | hreset | ⟨ok, hm, hok, hset⟩ := heff.ports_cases
  · exact .inl (by simpa [hsame] using hp)
  · simp only [State.setDraw_ports, State.advance_ports] at hr hset
    have hne : r ≠ p := by
      rintro rfl
      exact hq (Option.some.inj (hr.symm.trans hp))
    exact .inl (by rw [hset, List.getElem?_set_ne hne, hp])
  · exact .inr (.inl hreset)
  · obtain ⟨-, rfl⟩ := hinv.updatingOwns p hp
    have hlt : s.owner < s.ports.length := (List.getElem?_eq_some_iff.mp hp).1
    exact .inr (.inr ⟨ok, hm, by simpa using hok, by simp [hset, hlt]⟩)

/-! ## The transport's word step -/

/-- R237: in `TX(k)` with word `k` of the frame written, the transport shifts it onto the line. -/
theorem transportWordStep_of_word {s : State} {k : Nat} {w : Symbol} (hph : s.phase = .tx k) (hk : k < s.txWords)
    (hw : s.txbuf.read k = some w) :
    transportWordStep s = .next ((s.emit (.word k w)).setPhase (.tx (k + 1))) := by
  have hread : readSymbol s k = .ok w := (readSymbol_eq_ok ..).mpr hw
  simp [transportWordStep, hph, hk, hread]

/-- Settles O50: inside the rules the listed move is the transport's word step (`moveStep_of_rulesHold`), which
`transportWordStep_of_word` evaluates. -/
theorem transportTakesWordsInOrder : Obligations.TransportTakesWordsInOrder := by
  intro s rest k w hr hs hph hk hw
  calc step s
    _ = moveStep .transportWord (s.withMoves rest) := step_of_sched hs
    _ = transportWordStep (s.withMoves rest) := moveStep_of_rulesHold (s := s.withMoves rest) hr _
    _ = _ := transportWordStep_of_word (s := s.withMoves rest) hph hk hw

end Sys2Proof.Machine
end

