-- ==== Sys2Proof/Proofs/Lifecycle.lean ====
section
/-!
PROOFS. The statement about the lifetime of an instance (spec/44_lifecycle.md R274): what a transition does to LIFE,
MODEL and LED_COUNT.
-/

namespace Sys2Proof.Machine

/-- What a transition does to the instance: nothing, INIT opens one where there was none, or TEARDOWN or a reset
leaves none (R270, R275, R341). -/
theorem Effect.instance_cases {s t : State} {m : Move} (h : Effect s m t) :
    (t.life = s.life ∧ t.model = s.model ∧ t.ledCount = s.ledCount) ∨
    (s.life = .uninit ∧ t.life = .ready) ∨
    t.life = .uninit := by
  cases h with
  | idle | present | take | refuse | getPixel | lutRead | setPixel | fillNone | fillStart | fillNext | fillLast
  | acquire | encHead | encPix | encTail | txWord | txEnd => exact .inl ⟨rfl, rfl, rfl⟩
  | openInstance _ _ _ _ _ _ _ hl => exact .inr (.inl ⟨hl, rfl⟩)
  | closeInstance | reset => exact .inr (.inr rfl)

/-- Settles O39: by `Effect.instance_cases`, a step that writes MODEL or LED_COUNT opens an instance where there was
none or leaves none, and here LIFE = 1 on both sides of the step. -/
theorem modelAndCountAreFixed : Obligations.ModelAndCountAreFixed := by
  intro s t hstep hs ht
  obtain ⟨d, heff⟩ := step_effect hstep
  obtain ⟨-, hmodel, hcount⟩ | ⟨hopen, -⟩ | hclosed := heff.instance_cases
  · simpa using And.intro hmodel hcount
  · simp [hs] at hopen
  · simp [ht] at hclosed

end Sys2Proof.Machine
end

