-- ==== Sys2Proof/Proofs/ResetAndHazards.lean ====
section
/-!
PROOFS. The statements about the hardware reset and the end of a run (spec/70_reset_and_hazards.md R341, R354): what
a reset leaves in every element, and which agents have a step while the ports are at rest.
-/

namespace Sys2Proof.Machine

/-! ## Reset -/

/-- Settles O13: the step is `resetBlock`, the power-on state but for WIRE and the environment's own fields; its ports
are `N_PORTS` copies of `idle`. -/
theorem resetFromAnyState : Obligations.ResetFromAnyState := by
  intro s rest hsched
  have hstep : step s = .next (resetBlock (s.withMoves rest)) := step_of_sched hsched
  have hports : (resetBlock (s.withMoves rest)).ports = List.replicate s.params.nPorts .idle := rfl
  exact ⟨_, hstep, rfl, rfl, rfl, rfl, rfl, rfl, rfl, Memory.read_nil, Memory.read_nil,
    by rw [hports, List.length_replicate],
    fun p hp => by rw [hports, List.getElem?_replicate_of_lt hp],
    rfl, rfl, rfl, rfl, rfl⟩

/-! ## The end of a run -/

theorem State.runOver_iff (s : State) :
    s.runOver = true ↔
      (∀ (p : Nat) (q : PortState), s.ports[p]? = some q → q.atRest = true) ∧ s.busy = false ∧ s.phase = .idle := by
  simp only [State.runOver, Bool.and_eq_true, Bool.not_eq_true', decide_eq_true_eq, and_assoc, List.all_eq_true,
    List.mem_iff_getElem?, forall_exists_index]
  rw [forall_comm]

section Still

variable {s : State}

/-- The gate is free where PHASE is IDLE and inside the rules (R38). -/
theorem State.busy_eq_false_of_idle (hl : s.phaseLegal = true) (hph : s.phase = .idle) : s.busy = false := by
  simpa [State.phaseLegal, hph] using hl

/-- PHASE is IDLE exactly when neither the engine nor the transport has a step: the engine has one in every encode
phase, and the transport may end with an error at any `TX(k)` (R238). -/
theorem State.phase_eq_idle_iff :
    s.phase = .idle ↔ s.enabled .engine = false ∧ ∀ ok, s.enabled (.transportEnd ok) = false := by
  cases hph : s.phase with
  | idle => simp [State.enabled, hph]
  | encHead | encPix | encTail | tx => simp [State.enabled, hph]

/-- A port at rest has no step (R121, R166). -/
theorem State.portEnabled_eq_false_of_atRest {p : Nat}
    (hrest : ∀ q, s.ports[p]? = some q → q.atRest = true) : s.portEnabled p = false := by
  cases hp : s.ports[p]? with
  | none => simp [State.portEnabled, hp]
  | some q =>
    have hq := hrest q hp
    cases q with
    | idle | done => simp [State.portEnabled, hp]
    | pending | filling | updating => cases hq

/-- With the ports at rest and PHASE = IDLE neither the block nor the transport has a step. -/
theorem State.enabled_eq_false_of_atRest
    (hrest : ∀ (p : Nat) (q : PortState), s.ports[p]? = some q → q.atRest = true) (hph : s.phase = .idle)
    {m : Move} (hm : m.ofBlock = true) : s.enabled m = false := by
  cases m with
  | present | take | reset => cases hm
  | port p tok => exact State.portEnabled_eq_false_of_atRest (hrest p)
  | engine => exact (State.phase_eq_idle_iff.mp hph).1
  | transportWord => simp [State.enabled, hph]
  | transportEnd ok => exact (State.phase_eq_idle_iff.mp hph).2 ok

end Still

/-- Settles O21: that the ports are at rest stands on both sides; PHASE = IDLE is the engine and the transport having
no step (`State.phase_eq_idle_iff`), and it gives BUSY = 0 by R38. -/
theorem runIsOverExactlyWhenNothingMoves : Obligations.RunIsOverExactlyWhenNothingMoves := by
  intro s hinv
  rw [State.runOver_iff]
  constructor
  · rintro ⟨hrest, -, hph⟩
    exact ⟨fun m hm => State.enabled_eq_false_of_atRest hrest hph hm, hrest⟩
  · rintro ⟨hstill, hrest⟩
    have hph : s.phase = .idle :=
      State.phase_eq_idle_iff.mpr ⟨hstill .engine rfl, fun ok => hstill (.transportEnd ok) rfl⟩
    exact ⟨hrest, State.busy_eq_false_of_idle hinv.phaseInRules hph, hph⟩

end Sys2Proof.Machine
end

