-- ==== Sys2Proof/Proofs/EncodingRoundTrip.lean ====
section
/-!
PROOFS. The statements about the encoder, the decoder and the assembler (spec/30_encoding.md R101-R111, R123, R124):
the two round trips, the words that are no command, and what a line assembles to.
-/

namespace Sys2Proof

/-! ## Decoding an encoded command -/

section Fields

variable (op : BitVec 4) (model : BitVec 1) (arg : BitVec 16) (r g b : Byte)

theorem modelField_packCommand (m : StripModel) : modelField (packCommand op m.bit arg r g b) = m := by
  rw [modelField, getLsbD_packCommand _ _ _ _ _ _ 8 (by decide)]
  cases m <;> simp [StripModel.bit]

theorem nibbleField_eq_argField (w : CmdWord) : nibbleField w = (argField w).setWidth 4 := by
  apply BitVec.eq_of_getLsbD_eq
  intro i hi
  simp [nibbleField, argField, hi, show i < 16 by omega]

theorem colorField_packCommand : colorField (packCommand op model arg r g b) = { r := r, g := g, b := b } := by
  rw [colorField, Color.mk.injEq]
  refine ⟨?red, ?green, ?blue⟩
  all_goals
    apply BitVec.eq_of_getLsbD_eq
    intro i hi
    rw [BitVec.getLsbD_extractLsb', getLsbD_packCommand _ _ _ _ _ _ _ (by omega)]
    interval_cases i <;> simp

end Fields

/-- Every command's word meets the mask and match of its row (R107). -/
theorem encode_and_mask (i : Instr) : encode i &&& i.op.row.mask = i.op.row.pattern := by
  cases i with
  | init m count => exact Laws.FixedBits.init m count
  | teardown => exact Laws.FixedBits.teardown
  | setPixel index c => exact Laws.FixedBits.setPixel index c
  | fillAll c => exact Laws.FixedBits.fillAll c
  | getPixel index => exact Laws.FixedBits.getPixel index
  | update => exact Laws.FixedBits.update
  | lutRead n => exact Laws.FixedBits.lutRead n

/-- Every operand stands in its field of the command's word (R103). -/
theorem operandsOf_encode (i : Instr) : operandsOf i.op (encode i) = i := by
  cases i with
  | init m count => simp only [Instr.op, operandsOf, encode, modelField_packCommand, argField_packCommand]
  | setPixel index c => simp only [Instr.op, operandsOf, encode, argField_packCommand, colorField_packCommand]
  | fillAll c => simp only [Instr.op, operandsOf, encode, colorField_packCommand]
  | getPixel index => simp only [Instr.op, operandsOf, encode, argField_packCommand]
  | lutRead n =>
    simp only [Instr.op, operandsOf, encode, nibbleField_eq_argField, argField_packCommand,
      BitVec.setWidth_setWidth_of_le n (show 4 ≤ 16 by decide), BitVec.setWidth_eq]
  | teardown | update => rfl

theorem decode_encode (i : Instr) : decode (encode i) = .ok i :=
  decode_eq_ok_iff.mpr ⟨encode_and_mask i, (operandsOf_encode i).symm⟩

/-- Settles O1: the encoded word is accepted by its own row (`encode_and_mask`) and its fields are the operands
(`operandsOf_encode`). -/
theorem decodeOfEncodeIsTheCommand : Obligations.DecodeOfEncodeIsTheCommand := decode_encode

/-! ## Encoding a decoded word -/

section Agreement

variable {w w' : CmdWord}

/-- Two words that have one field in common have its bits in common. -/
theorem getLsbD_eq_of_field_eq {lo n k : Nat} (h : w.extractLsb' lo n = w'.extractLsb' lo n) (hlo : lo ≤ k)
    (hhi : k < lo + n) : w.getLsbD k = w'.getLsbD k := by
  have hbit : (w.extractLsb' lo n).getLsbD (k - lo) = (w'.extractLsb' lo n).getLsbD (k - lo) := by rw [h]
  simpa [BitVec.getLsbD_extractLsb', show k - lo < n by omega, Nat.add_sub_cancel' hlo] using hbit

theorem getLsbD_eq_of_colorField_eq {k : Nat} (h : colorField w = colorField w') (hlo : 32 ≤ k) (hhi : k < 56) :
    w.getLsbD k = w'.getLsbD k := by
  obtain ⟨hr, hg, hb⟩ := Color.mk.inj h
  obtain hk | hk | hk : k < 40 ∨ (40 ≤ k ∧ k < 48) ∨ 48 ≤ k := by omega
  · exact getLsbD_eq_of_field_eq hr hlo hk
  · exact getLsbD_eq_of_field_eq hg hk.1 hk.2
  · exact getLsbD_eq_of_field_eq hb hk hhi

theorem getLsbD_eq_of_modelField_eq (h : modelField w = modelField w') : w.getLsbD 8 = w'.getLsbD 8 := by
  rw [Bool.eq_iff_iff, ← modelField_eq_modelB_iff, ← modelField_eq_modelB_iff, h]

/-- Every bit that a row leaves free belongs to an operand of its command (R103, R107). -/
theorem getLsbD_eq_of_operands_eq {op : Op} {k : Nat} (hops : operandsOf op w = operandsOf op w') (hk : k < 64)
    (hfree : op.row.mask.getLsbD k = false) : w.getLsbD k = w'.getLsbD k := by
  cases op with
  | init =>
    obtain ⟨hmodel, harg⟩ := Instr.init.inj hops
    have hbits : ∀ k < 64, (Op.row .init).mask.getLsbD k = false → k = 8 ∨ (16 ≤ k ∧ k < 32) := by decide
    obtain rfl | ⟨hlo, hhi⟩ := hbits k hk hfree
    · exact getLsbD_eq_of_modelField_eq hmodel
    · exact getLsbD_eq_of_field_eq harg hlo hhi
  | setPixel =>
    obtain ⟨harg, hcolor⟩ := Instr.setPixel.inj hops
    have hbits : ∀ k < 64, (Op.row .setPixel).mask.getLsbD k = false → (16 ≤ k ∧ k < 32) ∨ (32 ≤ k ∧ k < 56) := by
      decide
    obtain ⟨hlo, hhi⟩ | ⟨hlo, hhi⟩ := hbits k hk hfree
    · exact getLsbD_eq_of_field_eq harg hlo hhi
    · exact getLsbD_eq_of_colorField_eq hcolor hlo hhi
  | fillAll =>
    have hbits : ∀ k < 64, (Op.row .fillAll).mask.getLsbD k = false → 32 ≤ k ∧ k < 56 := by decide
    obtain ⟨hlo, hhi⟩ := hbits k hk hfree
    exact getLsbD_eq_of_colorField_eq (Instr.fillAll.inj hops) hlo hhi
  | getPixel =>
    have hbits : ∀ k < 64, (Op.row .getPixel).mask.getLsbD k = false → 16 ≤ k ∧ k < 32 := by decide
    obtain ⟨hlo, hhi⟩ := hbits k hk hfree
    exact getLsbD_eq_of_field_eq (Instr.getPixel.inj hops) hlo hhi
  | lutRead =>
    have hbits : ∀ k < 64, (Op.row .lutRead).mask.getLsbD k = false → 16 ≤ k ∧ k < 20 := by decide
    obtain ⟨hlo, hhi⟩ := hbits k hk hfree
    exact getLsbD_eq_of_field_eq (Instr.lutRead.inj hops) hlo hhi
  | teardown =>
    have hbits : ∀ k < 64, (Op.row .teardown).mask.getLsbD k = true := by decide
    exact absurd (hbits k hk) (by simp [hfree])
  | update =>
    have hbits : ∀ k < 64, (Op.row .update).mask.getLsbD k = true := by decide
    exact absurd (hbits k hk) (by simp [hfree])

/-- No two words decode to one command: they agree on the bits its row fixes and on those of its operands. -/
theorem eq_of_decode_eq {i : Instr} (h : decode w = .ok i) (h' : decode w' = .ok i) : w = w' := by
  have hmask : w &&& i.op.row.mask = w' &&& i.op.row.mask := (mask_of_decode h).trans (mask_of_decode h').symm
  have hops : operandsOf i.op w = operandsOf i.op w' := (operands_of_decode h).symm.trans (operands_of_decode h')
  apply BitVec.eq_of_getLsbD_eq
  intro k hk
  cases hbit : i.op.row.mask.getLsbD k with
  | false => exact getLsbD_eq_of_operands_eq hops hk hbit
  | true => simpa [hbit] using congrArg (·.getLsbD k) hmask

end Agreement

/-- Settles O2: the word and the encoding of its command decode to the same command, so they are one word
(`eq_of_decode_eq`). -/
theorem encodeOfDecodeIsTheWord : Obligations.EncodeOfDecodeIsTheWord :=
  fun _ i h => eq_of_decode_eq (decode_encode i) h

/-! ## Words that are no command -/

theorem decode_of_rejected {w : CmdWord} (h : ∀ op : Op, op.row.accepts w = false) :
    decode w = .error (illegalReason w) := by
  have hnone : opcodeTable.find? (fun r => r.accepts w) = none := by
    rw [List.find?_eq_none, opcodeTable_eq_rows]
    intro row hrow
    obtain ⟨op, -, rfl⟩ := List.mem_map.mp hrow
    simp [h op]
  simp [decode, hnone]

/-- The OP values of R106 are 1 to 7. -/
theorem Op.code_range (op : Op) : 1 ≤ op.code.toNat ∧ op.code.toNat ≤ 7 := by cases op <;> decide

theorem illegalReason_of_command {w : CmdWord} (hlo : 1 ≤ (opField w).toNat) (hhi : (opField w).toNat ≤ 7) :
    illegalReason w = .mustBeZeroBitSet := if_pos ⟨hlo, hhi⟩

theorem illegalReason_of_reserved {w : CmdWord} (h : (opField w).toNat = 0 ∨ 8 ≤ (opField w).toNat) :
    illegalReason w = .reservedOp := if_neg (by omega)

/-- A row accepts no word with a reserved OP, since every row fixes the whole of OP (`opField_of_accepts`). -/
theorem decode_of_reserved {w : CmdWord} (h : (opField w).toNat = 0 ∨ 8 ≤ (opField w).toNat) :
    decode w = .error .reservedOp := by
  rw [decode_of_rejected, illegalReason_of_reserved h]
  intro op
  by_contra hacc
  have hcode := opField_of_accepts op w (by simpa using hacc)
  have hrange := op.code_range
  rw [hcode] at h
  omega

/-- Settles O5: a reserved OP is no row's (`decode_of_reserved`); a word with another OP that no row accepts is
rejected under the other name. -/
theorem reservedEncodingsAreIllegal : Obligations.ReservedEncodingsAreIllegal := by
  intro w
  refine ⟨fun hop => decode_of_reserved ?_, fun hlo hhi hrows => ?_⟩
  · exact hop.imp (fun h => by simp [opField, h]) BitVec.le_def.mp
  · have hrejected : ∀ op : Op, op.row.accepts w = false := fun op => by simpa [Row.accepts] using hrows op
    rw [decode_of_rejected hrejected, illegalReason_of_command (BitVec.le_def.mp hlo) (BitVec.le_def.mp hhi)]

/-- Settles O6: each word meets the mask and match of its row, and its fields are the operands written. -/
theorem decodeOfWrittenWords : Obligations.DecodeOfWrittenWords :=
  ⟨decode_of_mask .init (by decide), decode_of_mask .teardown (by decide), decode_of_mask .setPixel (by decide),
    decode_of_mask .fillAll (by decide), decode_of_mask .getPixel (by decide), decode_of_mask .update (by decide),
    decode_of_mask .lutRead (by decide)⟩

/-! ## The assembler -/

theorem AsmOp.assemble_of_wellFormed {a : AsmOp} (h : a.wellFormed = true) : a.assemble = some (encode a.instr) :=
  if_pos h

theorem AsmOp.assemble_of_not_wellFormed {a : AsmOp} (h : ¬ a.wellFormed = true) : a.assemble = none := if_neg h

section Ranges

variable (m : StripModel) (n r g b : Nat)

theorem AsmOp.wellFormed_init : (AsmOp.init m n).wellFormed = true ↔ n ≤ 65535 := by simp [AsmOp.wellFormed, fitsArg]

theorem AsmOp.wellFormed_setPixel :
    (AsmOp.setPixel n r g b).wellFormed = true ↔ n ≤ 65535 ∧ r ≤ 255 ∧ g ≤ 255 ∧ b ≤ 255 := by
  simp [AsmOp.wellFormed, fitsArg, fitsChannel, and_assoc]

theorem AsmOp.wellFormed_fillAll : (AsmOp.fillAll r g b).wellFormed = true ↔ r ≤ 255 ∧ g ≤ 255 ∧ b ≤ 255 := by
  simp [AsmOp.wellFormed, fitsChannel, and_assoc]

theorem AsmOp.wellFormed_getPixel : (AsmOp.getPixel n).wellFormed = true ↔ n ≤ 65535 := by
  simp [AsmOp.wellFormed, fitsArg]

theorem AsmOp.wellFormed_lutRead : (AsmOp.lutRead n).wellFormed = true ↔ n ≤ 15 := by
  simp [AsmOp.wellFormed, fitsNibble]

/-- R124's expansion of `OFF`, its index checked as any index is. -/
theorem AsmOp.assemble_off : (AsmOp.off n).assemble = (AsmOp.setPixel n 0 0 0).assemble := by
  by_cases h : n ≤ 65535
  · rw [AsmOp.assemble_of_wellFormed ((AsmOp.wellFormed_setPixel n 0 0 0).mpr (by omega)),
      AsmOp.assemble_of_wellFormed (by simpa [AsmOp.wellFormed, fitsArg] using h)]
    rfl
  · rw [AsmOp.assemble_of_not_wellFormed (mt (AsmOp.wellFormed_setPixel n 0 0 0).mp (by omega)),
      AsmOp.assemble_of_not_wellFormed (by simpa [AsmOp.wellFormed, fitsArg] using h)]

end Ranges

/-- A number in its field's range is the field's value. -/
theorem toNat_operand {width n : Nat} (h : n < 2 ^ width) : (BitVec.ofNat width n).toNat = n :=
  (BitVec.toNat_ofNat ..).trans (Nat.mod_eq_of_lt h)

/-- Settles O7: a line in range assembles to the encoding of its command, which decodes to it (`decode_encode`), and a
number in its field's range is the field's value; a line out of range is not well-formed. -/
theorem assemblerNeverTruncates : Obligations.AssemblerNeverTruncates := by
  refine ⟨?init, ?setPixel, ?fillAll, ?getPixel, ?lutRead, by decide, by decide, by decide, AsmOp.assemble_off,
    ?initOut, ?setPixelOut, ?fillAllOut, ?getPixelOut, ?lutReadOut⟩
  case init =>
    intro m n hn
    exact ⟨_, _, AsmOp.assemble_of_wellFormed ((AsmOp.wellFormed_init m n).mpr hn), decode_encode _,
      toNat_operand (by omega)⟩
  case setPixel =>
    intro n r g b hn hr hg hb
    exact ⟨_, _, _, AsmOp.assemble_of_wellFormed ((AsmOp.wellFormed_setPixel n r g b).mpr ⟨hn, hr, hg, hb⟩),
      decode_encode _, toNat_operand (by omega), toNat_operand (by omega), toNat_operand (by omega),
      toNat_operand (by omega)⟩
  case fillAll =>
    intro r g b hr hg hb
    exact ⟨_, _, AsmOp.assemble_of_wellFormed ((AsmOp.wellFormed_fillAll r g b).mpr ⟨hr, hg, hb⟩), decode_encode _,
      toNat_operand (by omega), toNat_operand (by omega), toNat_operand (by omega)⟩
  case getPixel =>
    intro n hn
    exact ⟨_, _, AsmOp.assemble_of_wellFormed ((AsmOp.wellFormed_getPixel n).mpr hn), decode_encode _,
      toNat_operand (by omega)⟩
  case lutRead =>
    intro n hn
    exact ⟨_, _, AsmOp.assemble_of_wellFormed ((AsmOp.wellFormed_lutRead n).mpr hn), decode_encode _,
      toNat_operand (by omega)⟩
  case initOut =>
    exact fun m n hn => AsmOp.assemble_of_not_wellFormed (mt (AsmOp.wellFormed_init m n).mp (by omega))
  case setPixelOut =>
    exact fun n r g b h => AsmOp.assemble_of_not_wellFormed (mt (AsmOp.wellFormed_setPixel n r g b).mp (by omega))
  case fillAllOut =>
    exact fun r g b h => AsmOp.assemble_of_not_wellFormed (mt (AsmOp.wellFormed_fillAll r g b).mp (by omega))
  case getPixelOut =>
    exact fun n hn => AsmOp.assemble_of_not_wellFormed (mt (AsmOp.wellFormed_getPixel n).mp (by omega))
  case lutReadOut =>
    exact fun n hn => AsmOp.assemble_of_not_wellFormed (mt (AsmOp.wellFormed_lutRead n).mp (by omega))

end Sys2Proof
end

