-- ==== Sys2Proof/Proofs/Commands.lean ====
section
/-!
PROOFS. The statements about the step of a port (spec/30_encoding.md R111, R120-R122) and about what each command
answers (spec/41_pixel_store.md, spec/43_transmit_gate.md, spec/44_lifecycle.md, spec/60_exceptions.md R303-R310).
-/

namespace Sys2Proof.Machine

/-! ## Responses, as the statements write them -/

section Responses

variable (s : State)

theorem complete_zero : complete 0#28 s = { s with ports := s.ports.set s.draw.port (.done 0x00000000#32) } := by
  rw [complete_eq, responseWord_ok_zero]; rfl

theorem raise_outOfRange :
    raise .outOfRange s = { s with ports := s.ports.set s.draw.port (.done 0x00000001#32) } := by
  rw [raise_eq, responseWord_outOfRange]; rfl

theorem raise_outOfMemory :
    raise .outOfMemory s = { s with ports := s.ports.set s.draw.port (.done 0x00000002#32) } := by
  rw [raise_eq, responseWord_outOfMemory]; rfl

theorem raise_transportInitError :
    raise .transportInitError s = { s with ports := s.ports.set s.draw.port (.done 0x00000003#32) } := by
  rw [raise_eq, responseWord_transportInitError]; rfl

theorem raise_stateError :
    raise .stateError s = { s with ports := s.ports.set s.draw.port (.done 0x00000005#32) } := by
  rw [raise_eq, responseWord_stateError]; rfl

theorem raise_illegalCommand :
    raise .illegalCommand s = { s with ports := s.ports.set s.draw.port (.done 0x00000006#32) } := by
  rw [raise_eq, responseWord_illegalCommand]; rfl

/-- R102: the status OK and the low data bits are the zero bits of the response. -/
theorem responseWord_symbolData (w : Symbol) : responseWord .ok (symbolData w) = w ++ 0#16 :=
  BitVec.append_assoc.trans rfl

theorem responseWord_colorData (c : Color) : responseWord .ok (colorData c) = c.b ++ c.g ++ c.r ++ 0#8 :=
  BitVec.append_assoc.trans rfl

end Responses

/-! ## The step of a port -/

section PortStep

variable {s : State} {p : Nat}

theorem portStep_of_command {w : CmdWord} {i : Instr} (hp : s.ports[p]? = some (.pending w)) (hd : decode w = .ok i) :
    portStep p s = exec i s := by
  simp only [portStep, hp, hd]

theorem portStep_of_illegal {w : CmdWord} {why : Illegal} (hp : s.ports[p]? = some (.pending w))
    (hd : decode w = .error why) : portStep p s = .next (raise .illegalCommand s) := by
  simp only [portStep, hp, hd]

theorem portStep_of_filling {c : Color} {i : Nat} (hp : s.ports[p]? = some (.filling c i)) :
    portStep p s = fillStep p c i s := by
  simp only [portStep, hp]

/-- A listed move inside the rules is its agent's step on the state with the move used up. -/
theorem step_of_port {tok : Bool} {rest : List Move} (hr : s.rulesHold = true) (hs : s.sched = .port p tok :: rest) :
    step s = portStep p { s with sched := rest, draw := { port := p, tok := tok } } :=
  (step_of_sched hs).trans (moveStep_of_rulesHold (s := s.withMoves rest) hr _)

/-- Settles O8. -/
theorem stepRunsThePendingCommand : Obligations.StepRunsThePendingCommand :=
  fun _ _ _ _ _ _ hr hs hp hd => (step_of_port hr hs).trans (portStep_of_command hp hd)

/-- Settles O9: the port's step is the error response, and `raise` writes the port alone. -/
theorem illegalCommandIsAnswered : Obligations.IllegalCommandIsAnswered := by
  intro s p tok rest w why hr hs hp hd
  calc step s
    _ = portStep p { s with sched := rest, draw := { port := p, tok := tok } } := step_of_port hr hs
    _ = .next (raise .illegalCommand _) := portStep_of_illegal hp hd
    _ = _ := by rw [raise_illegalCommand]

/-- Settles O10: inside the rules the host's move is `hostPresent` or `hostTake`, and its guard holds. -/
theorem hostPresentsAndTakes : Obligations.HostPresentsAndTakes := by
  intro s p rest hr
  refine ⟨fun cmd hs hp => ?present, fun rsp hs hp => ?take⟩
  case present =>
    rw [step_of_sched hs, moveStep_of_rulesHold (s := s.withMoves rest) hr]
    exact congrArg Host.Outcome.next (if_pos hp)
  case take =>
    have hrsp : s.response p = some rsp := (response_eq_some s p rsp).mpr hp
    have hsome : ((s.withMoves rest).response p).isSome = true := by
      rw [(response_eq_some (s.withMoves rest) p rsp).mpr hp]; rfl
    rw [step_of_sched hs, moveStep_of_rulesHold (s := s.withMoves rest) hr]
    exact ⟨hrsp, congrArg Host.Outcome.next (if_pos hsome)⟩

end PortStep

/-! ## The Timing Table's command -/

/-- Settles O24. -/
theorem lutReadAnswersTheSymbol : Obligations.LutReadAnswersTheSymbol := by
  intro n s
  rw [← responseWord_symbolData]
  rfl

/-! ## The Pixel Store's commands -/

section PixelStore

variable {s : State} {index : BitVec 16}

theorem readPixel_of_written {i : Nat} {c : Color} (hi : i < s.leds) (hfit : s.leds ≤ s.params.maxLeds)
    (hc : s.pixel.read i = some c) : readPixel s i = .ok c :=
  (readPixel_eq_ok ..).mpr ⟨by omega, hc⟩

theorem readPixel_of_unwritten {i : Nat} (hi : i < s.leds) (hfit : s.leds ≤ s.params.maxLeds)
    (hc : s.pixel.read i = none) : readPixel s i = .error .pixelUnwritten := by
  simp [readPixel, hc, show i < s.params.maxLeds by omega]

theorem writePixel_of_fits {i : Nat} {c : Color} (hi : i < s.leds) (hfit : s.leds ≤ s.params.maxLeds) :
    writePixel s i c = .ok (s.setPixels (s.pixel.write i c)) :=
  (writePixel_eq_ok ..).mpr ⟨by omega, rfl⟩

theorem State.outOfRange_eq_true {i : Nat} (h : s.leds ≤ i) : s.outOfRange i = true := decide_eq_true h

theorem State.outOfRange_eq_false {i : Nat} (h : i < s.leds) : s.outOfRange i = false := decide_eq_false (by omega)

/-- R160, with the instance and the index in range. -/
theorem execSetPixel_of_inRange {c : Color} (hl : s.life = .ready) (hi : index.toNat < s.leds)
    (hfit : s.leds ≤ s.params.maxLeds) :
    execSetPixel index c s = .next (complete 0#28 (s.setPixels (s.pixel.write index.toNat c))) := by
  simp [execSetPixel, hl, State.outOfRange_eq_false hi, writePixel_of_fits hi hfit]

/-- R170: the check of the index passed, the answer is that of the read. -/
theorem execGetPixel_of_inRange (hl : s.life = .ready) (hi : index.toNat < s.leds) :
    execGetPixel index s = proceed (readPixel s index.toNat) fun c => .next (complete (colorData c) s) := by
  simp [execGetPixel, hl, State.outOfRange_eq_false hi]

/-- R166, with the index in range. -/
theorem fillStep_of_inRange {p i : Nat} {c : Color} (hi : i < s.leds) (hfit : s.leds ≤ s.params.maxLeds) :
    fillStep p c i s = .next { s with
      pixel := s.pixel.write i c
      ports := s.ports.set p (if i + 1 = s.leds then .done 0x00000000#32 else .filling c (i + 1)) } := by
  rw [fillStep, writePixel_of_fits hi hfit, proceed_ok]
  split_ifs
  · rw [respond_eq, responseWord_ok_zero]; rfl
  · rfl

/-- Settles O25: the next state is that of `execSetPixel_of_inRange`; the laws of a written array say what it reads. -/
theorem setPixelReplacesOneEntry : Obligations.SetPixelReplacesOneEntry := by
  intro index c s hl hi hfit
  refine ⟨_, execSetPixel_of_inRange hl hi hfit, ?entry, ?others, ?frame⟩
  case entry => exact Memory.read_write_same ..
  case others => exact fun j hj => Memory.read_write_other _ _ _ _ hj
  case frame => rw [complete_zero]; rfl

/-- Settles O26. -/
theorem getPixelAnswersTheColour : Obligations.GetPixelAnswersTheColour := by
  intro index c s hl hi hfit hc
  calc exec (.getPixel index) s
    _ = execGetPixel index s := rfl
    _ = .next (complete (colorData c) s) := by
      rw [execGetPixel_of_inRange hl hi, readPixel_of_written hi hfit hc, proceed_ok]
    _ = _ := by rw [complete_eq, responseWord_colorData]; rfl

/-- Settles O27. -/
theorem fillAllIsAccepted : Obligations.FillAllIsAccepted := by
  intro c s hl
  have hnot : s.life ≠ .uninit := by simp [hl]
  refine ⟨fun h0 => ?empty, fun h0 => ?accepted⟩
  case empty => rw [← complete_zero]; exact (if_neg hnot).trans (if_pos h0)
  case accepted => exact (if_neg hnot).trans (if_neg (by omega))

/-- A fill's next index is in range inside the rules (R45). -/
theorem State.index_lt_leds_of_filling {p i : Nat} {c : Color} (hr : s.rulesHold = true)
    (hp : s.ports[p]? = some (.filling c i)) : i < s.leds := by
  simpa [State.portLegal] using s.portsLegal_iff.mp (s.rulesHold_iff.mp hr).2 p _ hp

/-- R166 as a step of the machine. -/
theorem step_filling {p i : Nat} {c : Color} {tok : Bool} {rest : List Move} (hr : s.rulesHold = true)
    (hs : s.sched = .port p tok :: rest) (hp : s.ports[p]? = some (.filling c i)) (hfit : s.leds ≤ s.params.maxLeds) :
    step s = .next { s with
      sched := rest, draw := { port := p, tok := tok }, pixel := s.pixel.write i c
      ports := s.ports.set p (if i + 1 = s.leds then .done 0x00000000#32 else .filling c (i + 1)) } := by
  calc step s
    _ = portStep p { s with sched := rest, draw := { port := p, tok := tok } } := step_of_port hr hs
    _ = fillStep p c i _ := portStep_of_filling hp
    _ = _ := fillStep_of_inRange (State.index_lt_leds_of_filling hr hp) hfit

/-- Settles O28. -/
theorem fillStepWritesOneEntry : Obligations.FillStepWritesOneEntry := by
  intro s p tok rest c i hr hs hp hfit
  exact ⟨_, step_filling hr hs hp hfit, Memory.read_write_same .., fun j hj => Memory.read_write_other _ _ _ _ hj, rfl⟩

/-- Settles O30: LIFE is the first check of each of the four (R304). -/
theorem noInstanceIsStateError : Obligations.NoInstanceIsStateError := by
  intro s hl
  rw [← raise_stateError]
  exact ⟨fun _ _ => if_pos hl, fun _ => if_pos hl, fun _ => if_pos hl, if_pos hl⟩

/-- Settles O31: with an instance the index is the next check of the two (R304). -/
theorem indexPastTheStripIsOutOfRange : Obligations.IndexPastTheStripIsOutOfRange := by
  intro index s hl hi
  have hnot : s.life ≠ .uninit := by simp [hl]
  have hout : s.outOfRange index.toNat = true := State.outOfRange_eq_true hi
  rw [← raise_outOfRange]
  exact ⟨fun _ => (if_neg hnot).trans (if_pos hout), (if_neg hnot).trans (if_pos hout)⟩

end PixelStore

/-! ## The lifecycle's commands -/

section Lifecycle

variable {s : State}

theorem overCapacity_eq_false_iff (c : Params) (m : StripModel) (leds : Nat) :
    overCapacity c m leds = false ↔ leds ≤ c.maxLeds ∧ frameWordCount m leds ≤ c.txbufWords := by
  simp [overCapacity]

/-- R200's count, as the statements write it. -/
theorem frameWordCount_eq_ite (m : StripModel) (leds : Nat) :
    frameWordCount m leds = 6 * leds + (if m = .modelA then 3 else 30) + 1 := by
  rw [← resetDelay_eq_ite, frameWordCount, Nat.mul_comm]

/-- Settles O35. -/
theorem initOpensTheInstance : Obligations.InitOpensTheInstance := by
  intro m count s hl hleds hwords htok
  have hcap : overCapacity s.params m count.toNat = false :=
    (overCapacity_eq_false_iff ..).mpr ⟨hleds, (frameWordCount_eq_ite ..).trans_le hwords⟩
  have hexec : exec (.init m count) s = .next (complete 0#28 (s.openInstance m count)) := by
    simp [exec, execInit, hl, hcap, htok]
  refine ⟨_, hexec, ?pixels, ?frame⟩
  case pixels => exact fun i => Memory.read_fillBelow ..
  case frame => rw [complete_zero]; rfl

/-- Settles O36: LIFE, the capacities and the transport's answer are checked in this order (R304). -/
theorem initRefusalsInOrder : Obligations.InitRefusalsInOrder := by
  intro m count s
  rw [← raise_stateError, ← raise_outOfMemory, ← raise_transportInitError, ← frameWordCount_eq_ite]
  refine ⟨fun hl => if_pos hl, fun hl hover => ?memory, fun hl hleds hwords htok => ?transport⟩
  case memory =>
    have hcap : overCapacity s.params m count.toNat = true := by simpa [overCapacity] using hover
    simp [exec, execInit, hl, hcap]
  case transport =>
    have hcap : overCapacity s.params m count.toNat = false := (overCapacity_eq_false_iff ..).mpr ⟨hleds, hwords⟩
    simp [exec, execInit, hl, hcap, htok]

theorem State.active_eq_true_iff (s : State) :
    s.active = true ↔ s.busy = true ∨ ∃ (q : Nat) (c : Color) (i : Nat), s.ports[q]? = some (.filling c i) := by
  have hfilling : ∀ x : PortState, x.isFilling = true ↔ ∃ c i, x = .filling c i := by
    intro x
    cases x <;> simp [PortState.isFilling]
  simp only [State.active, Bool.or_eq_true, List.any_eq_true, hfilling, List.mem_iff_getElem?]
  constructor
  · rintro (hb | ⟨_, ⟨q, hq⟩, c, i, rfl⟩)
    · exact .inl hb
    · exact .inr ⟨q, c, i, hq⟩
  · rintro (hb | ⟨q, c, i, hq⟩)
    · exact .inl hb
    · exact .inr ⟨_, ⟨q, hq⟩, c, i, rfl⟩

theorem State.active_eq_false_iff (s : State) :
    s.active = false ↔ s.busy = false ∧ ∀ (q : Nat) (c : Color) (i : Nat), s.ports[q]? ≠ some (.filling c i) := by
  rw [← Bool.not_eq_true, State.active_eq_true_iff]
  simp

/-- Settles O37. -/
theorem teardownReleasesEverything : Obligations.TeardownReleasesEverything := by
  intro s hl hb hfill
  have hactive : s.active = false := s.active_eq_false_iff.mpr ⟨hb, hfill⟩
  have hexec : exec .teardown s = .next (complete 0#28 s.closeInstance) := by simp [exec, execTeardown, hl, hactive]
  refine ⟨_, hexec, Memory.read_nil, Memory.read_nil, ?frame⟩
  case frame => rw [complete_zero]; rfl

/-- Settles O38: without an instance LIFE refuses it, else the update or the fill in flight. -/
theorem teardownIsRefused : Obligations.TeardownIsRefused := by
  intro s h
  rw [← s.active_eq_true_iff] at h
  rw [← raise_stateError]
  by_cases hl : s.life = .uninit
  · exact if_pos hl
  · exact (if_neg hl).trans (if_pos (h.resolve_left hl))

end Lifecycle

/-! ## UPDATE -/

/-- Settles O40. -/
theorem updateTakesTheGate : Obligations.UpdateTakesTheGate := by
  intro s hl hb
  have hnot : s.life ≠ .uninit := by simp [hl]
  exact (if_neg hnot).trans (if_neg (by simp [hb]))

/-- R232, and log entry 3: a move of the port is used up. -/
theorem execUpdate_of_taken {s : State} (hl : s.life = .ready) (hb : s.busy = true) : execUpdate s = .next s :=
  (if_neg (by simp [hl])).trans (if_pos hb)

/-- Settles O41: the port's step is the command's, which answers the state it was given. -/
theorem updateIsHeldWhileTheGateIsTaken : Obligations.UpdateIsHeldWhileTheGateIsTaken := by
  intro s p tok rest w hr hs hp hd hl hb
  calc step s
    _ = exec .update { s with sched := rest, draw := { port := p, tok := tok } } :=
      stepRunsThePendingCommand s p tok rest w .update hr hs hp hd
    _ = _ := execUpdate_of_taken hl hb

/-! ## What a command leaves alone -/

/-- A command that answers a next state has raised an error, or has completed or started its work with one write of its
own port, or is a held UPDATE. -/
theorem exec_ports_cases {i : Instr} {s t : State} (h : exec i s = .next t) :
    (∃ st, t = raise st s) ∨ (∃ d, t.ports = s.ports.set s.draw.port (.done (responseWord .ok d))) ∨
    (∃ q, (∀ rsp, q ≠ .done rsp) ∧ t.ports = s.ports.set s.draw.port q) ∨ t = s := by
  cases i with
  | init m count =>
    obtain ⟨-, ht⟩ | ⟨-, -, ht⟩ | ⟨-, -, -, ht⟩ | ⟨-, -, -, rfl⟩ := execInit_cases h
    · exact .inl ⟨_, ht⟩
    · exact .inl ⟨_, ht⟩
    · exact .inl ⟨_, ht⟩
    · exact .inr (.inl ⟨_, rfl⟩)
  | teardown =>
    obtain ⟨-, ht⟩ | ⟨-, -, rfl⟩ := execTeardown_cases h
    · exact .inl ⟨_, ht⟩
    · exact .inr (.inl ⟨_, rfl⟩)
  | setPixel index c =>
    obtain ⟨-, ht⟩ | ⟨-, -, ht⟩ | ⟨-, -, -, rfl⟩ := execSetPixel_cases h
    · exact .inl ⟨_, ht⟩
    · exact .inl ⟨_, ht⟩
    · exact .inr (.inl ⟨_, rfl⟩)
  | fillAll c =>
    obtain ⟨-, ht⟩ | ⟨-, -, rfl⟩ | ⟨-, -, rfl⟩ := execFillAll_cases h
    · exact .inl ⟨_, ht⟩
    · exact .inr (.inl ⟨_, rfl⟩)
    · exact .inr (.inr (.inl ⟨.filling c 0, nofun, rfl⟩))
  | getPixel index =>
    obtain ⟨-, ht⟩ | ⟨-, -, ht⟩ | ⟨-, -, -, c, -, rfl⟩ := execGetPixel_cases h
    · exact .inl ⟨_, ht⟩
    · exact .inl ⟨_, ht⟩
    · exact .inr (.inl ⟨_, rfl⟩)
  | update =>
    obtain ⟨-, ht⟩ | ⟨-, -, ht⟩ | ⟨-, -, rfl⟩ := execUpdate_cases h
    · exact .inl ⟨_, ht⟩
    · exact .inr (.inr (.inr ht))
    · exact .inr (.inr (.inl ⟨.updating, nofun, rfl⟩))
  | lutRead n => exact .inr (.inl ⟨_, congrArg State.ports (execLutRead_cases h)⟩)

/-- A port that was written and exists holds what was written. -/
theorem eq_of_getElem?_set {ports : List PortState} {p : Nat} {q r : PortState} (h : (ports.set p q)[p]? = some r) :
    r = q := by
  obtain ⟨hlt, hget⟩ := List.getElem?_eq_some_iff.mp h
  simpa using hget.symm

/-- Settles O33: of the ways of `exec_ports_cases`, one raised the error, in one the port was answered before the
command (a held UPDATE), and in the others the port holds no error. -/
theorem failedCommandChangesOnlyItsPort : Obligations.FailedCommandChangesOnlyItsPort := by
  intro i s t rsp h hrsp hstatus
  obtain ⟨st, rfl⟩ | ⟨d, ht⟩ | ⟨q, hq, ht⟩ | rfl := exec_ports_cases h
  · obtain rfl := PortState.done.inj (eq_of_getElem?_set hrsp)
    rfl
  · rw [ht] at hrsp
    obtain rfl := PortState.done.inj (eq_of_getElem?_set hrsp)
    exact absurd (responseWord_status .ok d) hstatus
  · rw [ht] at hrsp
    exact absurd (eq_of_getElem?_set hrsp).symm (hq rsp)
  · exact (State.setPort_self t _ _ hrsp).symm

/-- Settles O34: in each of the ways of `exec_ports_cases` the ports are the old ones, or those with the command's own
port written. -/
theorem commandTouchesNoOtherPort : Obligations.CommandTouchesNoOtherPort := by
  intro i s t q h hq
  obtain ⟨st, rfl⟩ | ⟨d, ht⟩ | ⟨r, -, ht⟩ | rfl := exec_ports_cases h
  · exact List.getElem?_set_ne hq.symm
  · rw [ht]; exact List.getElem?_set_ne hq.symm
  · rw [ht]; exact List.getElem?_set_ne hq.symm
  · rfl

end Sys2Proof.Machine
end

