-- ==== Sys2Proof/Proofs/Invariant.lean ====
section
/-!
PROOFS. The invariants of spec/10_state.md R48: they hold at power-on, each named update keeps them under its own
guard, and so does every step of every agent.
-/

namespace Sys2Proof.Machine

variable {s t : State}

/-! ## What the invariants say of a state -/

/-- A port after one port was written: the one written, or another as it was. -/
theorem State.port_setPort_eq_some {p r : Nat} {q x : PortState} (h : (s.setPort p q).ports[r]? = some x) :
    (r = p ∧ x = q) ∨ (r ≠ p ∧ s.ports[r]? = some x) := by
  by_cases hr : r = p
  · subst hr
    exact .inl ⟨rfl, eq_of_getElem?_set h⟩
  · exact .inr ⟨hr, (State.port_setPort_other _ _ _ _ hr).symm.trans h⟩

theorem isSome_getElem?_of_lt {α : Type} {l : List α} {i : Nat} (h : i < l.length) : l[i]?.isSome = true := by
  simp [h]

theorem State.phase_eq_idle_of_free (hl : s.phaseLegal = true) (hb : s.busy = false) : s.phase = .idle := by
  cases hph : s.phase <;> simp [State.phaseLegal, hph, hb] at hl
  rfl

/-- PHASE is outside IDLE exactly while the gate is taken (R38). -/
theorem State.busy_of_phase_ne_idle (hl : s.phaseLegal = true) (hph : s.phase ≠ .idle) : s.busy = true := by
  cases hb : s.busy with
  | true => rfl
  | false => exact absurd (State.phase_eq_idle_of_free hl hb) hph

theorem State.encodedWords_of_idle (hph : s.phase = .idle) : s.encodedWords = 0 := by simp [State.encodedWords, hph]

namespace State.Inv

/-- The gate is taken only while there is an instance (R48 item 1). -/
theorem life_eq_ready (h : s.Inv) (hb : s.busy = true) : s.life = .ready := by
  cases hl : s.life with
  | ready => rfl
  | uninit => exact absurd (h.uninitRegisters hl).1 (by simp [hb])

theorem capacityHolds (h : s.Inv) (hl : s.life = .ready) : s.capacityHolds := ⟨h.ledsFit, h.wordsFit hl⟩

theorem portsLegal (h : s.Inv) : s.portsLegal = true := (s.rulesHold_iff.mp h.rulesHold).2

theorem lt_nPorts (h : s.Inv) {p : Nat} {q : PortState} (hp : s.ports[p]? = some q) : p < s.params.nPorts :=
  h.portCount ▸ (List.getElem?_eq_some_iff.mp hp).1

/-! ## The updates keep the invariants -/

/-- WIRE and the environment's own fields are in none of the invariants. -/
theorem setEnvironment (h : s.Inv) (wire : List WireEvent) (draw : Draw) (sched : List Move) (draws : Nat) :
    ({ s with wire := wire, draw := draw, sched := sched, draws := draws } : State).Inv :=
  { h with }

theorem emit (h : s.Inv) (e : WireEvent) : (s.emit e).Inv := h.setEnvironment _ s.draw s.sched s.draws

theorem setDraw (h : s.Inv) (d : Draw) : (s.setDraw d).Inv := h.setEnvironment s.wire d s.sched s.draws

theorem withMoves (h : s.Inv) (ms : List Move) : (s.withMoves ms).Inv := h.setEnvironment s.wire s.draw ms s.draws

theorem advance (h : s.Inv) : s.advance.Inv := by
  unfold State.advance
  split
  · exact h.setEnvironment s.wire s.draw _ s.draws
  · exact h.setEnvironment s.wire s.draw s.sched _

/-- A port that is not `updating` takes any value of R45 but that one. -/
theorem setPort (h : s.Inv) {p : Nat} {q : PortState} (hold : s.ports[p]? ≠ some .updating) (hnew : q ≠ .updating)
    (hfill : ∀ c i, q = .filling c i → i < s.leds) : (s.setPort p q).Inv :=
  { h with
    portCount := List.length_set.trans h.portCount
    ownerUpdating := fun hb => by
      have hother : s.owner ≠ p := fun he => hold (he ▸ h.ownerUpdating hb)
      exact (State.port_setPort_other _ _ _ _ hother).trans (h.ownerUpdating hb)
    updatingOwns := fun r hr => by
      obtain ⟨-, he⟩ | ⟨-, hr⟩ := State.port_setPort_eq_some hr
      · exact absurd he.symm hnew
      · exact h.updatingOwns r hr
    fillInRange := fun r c i hr => by
      obtain ⟨-, he⟩ | ⟨-, hr⟩ := State.port_setPort_eq_some hr
      · exact hfill c i he.symm
      · exact h.fillInRange r c i hr }

/-- A response may be put on any port that is not `updating`. -/
theorem setPort_done (h : s.Inv) {p : Nat} {q : PortState} (hp : s.ports[p]? = some q) (hq : q ≠ .updating)
    (rsp : RspWord) : (s.setPort p (.done rsp)).Inv :=
  h.setPort (fun he => hq (Option.some.inj (hp.symm.trans he))) nofun nofun

/-- An entry in use is replaced. -/
theorem setPixels_write (h : s.Inv) {i : Nat} (hi : i < s.leds) (c : Color) :
    (s.setPixels (s.pixel.write i c)).Inv :=
  { h with
    pixelForm := Memory.wf_write _ _ _ h.pixelForm
    pixelWritten := fun j => by
      by_cases hj : j = i
      · subst hj
        simp [hi]
      · exact (congrArg Option.isSome (Memory.read_write_other _ _ _ _ hj)).trans (h.pixelWritten j) }

/-- Words in use are written. -/
theorem setTxbuf_writeAll (h : s.Inv) (hl : s.life = .ready) {k : Nat} {ws : List Symbol}
    (hfit : k + ws.length ≤ s.txWords) : (s.setTxbuf (s.txbuf.writeAll k ws)).Inv :=
  { h with
    txbufForm := Memory.wf_writeAll _ _ _ h.txbufForm
    txbufInUse := fun j hj => by
      rw [State.setTxbuf_txbuf, Memory.read_writeAll] at hj
      split_ifs at hj with hr
      · exact ⟨by simp only [State.setTxbuf_txWords]; omega, hl⟩
      · exact h.txbufInUse j hj
    encodedWritten := fun j hj => by
      rw [State.setTxbuf_txbuf, Memory.read_writeAll]
      split_ifs with hr
      · exact isSome_getElem?_of_lt (by omega)
      · exact h.encodedWritten j hj }

/-- PHASE takes a legal value whose words are all written. -/
theorem setPhase (h : s.Inv) {ph : Phase} (hlegal : (s.setPhase ph).phaseLegal = true)
    (hwords : ∀ j, j < (s.setPhase ph).encodedWords → (s.txbuf.read j).isSome = true) : (s.setPhase ph).Inv :=
  { h with phaseInRules := hlegal, encodedWritten := hwords }

/-- An encode step: words from the end of those written so far, then a phase that claims no more (R194-R196). -/
theorem encode (h : s.Inv) (hb : s.busy = true) {k : Nat} {ws : List Symbol} {ph : Phase} (hk : s.encodedWords = k)
    (hfit : k + ws.length ≤ s.txWords) (hlegal : (s.setPhase ph).phaseLegal = true)
    (hwords : (s.setPhase ph).encodedWords ≤ k + ws.length) :
    ((s.setTxbuf (s.txbuf.writeAll k ws)).setPhase ph).Inv := by
  refine (h.setTxbuf_writeAll (h.life_eq_ready hb) hfit).setPhase hlegal fun j hj => ?_
  have hlt : j < k + ws.length := Nat.lt_of_lt_of_le hj hwords
  rw [State.setTxbuf_txbuf, Memory.read_writeAll]
  split_ifs with hr
  · exact isSome_getElem?_of_lt (by omega)
  · exact h.encodedWritten j (by omega)

/-- INIT's write of the registers and of the pixels (R270). -/
theorem openInstance (h : s.Inv) (hl : s.life = .uninit) {m : StripModel} {count : BitVec 16}
    (hcap : overCapacity s.params m count.toNat = false) : (s.openInstance m count).Inv := by
  obtain ⟨hb, -, hcount⟩ := h.uninitRegisters hl
  obtain ⟨hleds, hwords⟩ := (overCapacity_eq_false_iff ..).mp hcap
  have hph : s.phase = .idle := State.phase_eq_idle_of_free h.phaseInRules hb
  have h0 : s.leds = 0 := by simp [State.leds, hcount]
  exact { h with
    pixelForm := Memory.wf_fillBelow _ _ _ h.pixelForm
    pixelWritten := fun i => by
      have hold : (s.pixel.read i).isSome = false := (h.pixelWritten i).trans (by simp [h0])
      rw [State.openInstance_pixel, Memory.read_fillBelow, State.openInstance_leds]
      split_ifs with hi
      · simp [hi]
      · simp [hi, hold]
    txbufInUse := fun k hk => absurd (h.txbufInUse k hk).2 (by simp [hl])
    uninitRegisters := nofun
    tcfgIsLife := rfl
    ledsFit := hleds
    wordsFit := fun _ => hwords
    phaseInRules := by simp [State.phaseLegal, hph, hb]
    fillInRange := fun p c i hp => absurd (h.fillInRange p c i hp) (by omega)
    encodedWritten := fun j hj => by
      rw [State.encodedWords_of_idle (s := s.openInstance m count) hph] at hj
      omega }

/-- TEARDOWN's writes, with nothing in flight (R275). -/
theorem closeInstance (h : s.Inv) (ha : s.active = false) : s.closeInstance.Inv := by
  obtain ⟨hb, hfill⟩ := s.active_eq_false_iff.mp ha
  have hph : s.phase = .idle := State.phase_eq_idle_of_free h.phaseInRules hb
  exact { h with
    pixelForm := rfl
    txbufForm := rfl
    pixelWritten := fun _ => rfl
    txbufInUse := nofun
    uninitRegisters := fun _ => ⟨hb, rfl, rfl⟩
    tcfgIsLife := rfl
    ledsFit := Nat.zero_le _
    wordsFit := nofun
    phaseInRules := by simp [State.phaseLegal, hph, hb]
    fillInRange := fun p c i hp => absurd hp (hfill p c i)
    encodedWritten := fun j hj => by
      rw [State.encodedWords_of_idle (s := s.closeInstance) hph] at hj
      omega }

/-- The gate taken by an UPDATE (R231). -/
theorem acquire (h : s.Inv) {p : Nat} {q : PortState} (hp : s.ports[p]? = some q) (hl : s.life = .ready)
    (hb : s.busy = false) : (((s.takeGate p).setPhase .encHead).setPort p .updating).Inv :=
  { h with
    portCount := List.length_set.trans h.portCount
    uninitRegisters := fun hu => absurd (hl.symm.trans hu) nofun
    phaseInRules := rfl
    ownerIsPort := h.lt_nPorts hp
    ownerUpdating := fun _ => State.port_setPort_same _ _ _ (List.getElem?_eq_some_iff.mp hp).1
    updatingOwns := fun r hr => by
      obtain ⟨he, -⟩ | ⟨-, hr⟩ := State.port_setPort_eq_some hr
      · exact ⟨rfl, he⟩
      · exact absurd (h.updatingOwns r hr).1 (by simp [hb])
    fillInRange := fun r c i hr => by
      obtain ⟨-, he⟩ | ⟨-, hr⟩ := State.port_setPort_eq_some hr
      · cases he
      · exact h.fillInRange r c i hr
    encodedWritten := fun j hj => absurd hj (Nat.not_lt_zero j) }

/-- The gate released and its owner answered (R238, R240). -/
theorem release (h : s.Inv) (hb : s.busy = true) (rsp : RspWord) :
    ((s.releaseGate.setPhase .idle).setPort s.owner (.done rsp)).Inv :=
  { h with
    portCount := List.length_set.trans h.portCount
    uninitRegisters := fun hu => absurd ((h.life_eq_ready hb).symm.trans hu) nofun
    phaseInRules := rfl
    ownerUpdating := nofun
    updatingOwns := fun r hr => by
      obtain ⟨-, he⟩ | ⟨hne, hr⟩ := State.port_setPort_eq_some hr
      · cases he
      · exact absurd (h.updatingOwns r hr).2 hne
    fillInRange := fun r c i hr => by
      obtain ⟨-, he⟩ | ⟨-, hr⟩ := State.port_setPort_eq_some hr
      · cases he
      · exact h.fillInRange r c i hr
    encodedWritten := fun j hj => absurd hj (Nat.not_lt_zero j) }

end State.Inv

/-! ## Power-on and reset -/

/-- Settles O12: the registers are those of `State.powerOn`, and its ports are `N_PORTS` copies of `idle`. -/
theorem powerOnValues : Obligations.PowerOnValues := by
  intro c
  exact ⟨rfl, rfl, rfl, rfl, rfl, rfl, rfl, rfl, Memory.read_nil, Memory.read_nil,
    fun p hp => List.getElem?_replicate_of_lt hp, rfl, rfl, rfl⟩

theorem Params.legal_iff (c : Params) : c.legal = true ↔ 1 ≤ c.nPorts ∧ c.maxLeds ≤ 65535 ∧ 4 ≤ c.txbufWords := by
  simp [Params.legal, and_assoc]

/-- Every port is idle after power-on (R50). -/
theorem powerOn_port {c : Params} {p : Nat} {q : PortState} (h : (State.powerOn c).ports[p]? = some q) : q = .idle :=
  List.eq_of_mem_replicate (List.mem_of_getElem? h)

theorem powerOn_inv {c : Params} (hc : c.legal = true) : (State.powerOn c).Inv where
  paramsLegal := hc
  portCount := List.length_replicate
  pixelForm := rfl
  txbufForm := rfl
  pixelWritten := fun _ => rfl
  txbufInUse := nofun
  uninitRegisters := fun _ => ⟨rfl, rfl, rfl⟩
  tcfgIsLife := rfl
  ledsFit := Nat.zero_le _
  wordsFit := nofun
  phaseInRules := rfl
  ownerIsPort := ((Params.legal_iff c).mp hc).1
  ownerUpdating := nofun
  updatingOwns := fun _ hp => absurd (powerOn_port hp) nofun
  fillInRange := fun _ _ _ hp => absurd (powerOn_port hp) nofun
  encodedWritten := fun j hj => absurd hj (Nat.not_lt_zero j)

/-- Settles O14: with no instance and PHASE = IDLE there is no frame to speak of, and no port is done. -/
theorem powerOnMeetsTheInvariants : Obligations.PowerOnMeetsTheInvariants :=
  fun _ hc => ⟨powerOn_inv hc, trivial, fun _ _ hp => absurd (powerOn_port hp) nofun⟩

theorem State.Inv.resetBlock (h : s.Inv) : (resetBlock s).Inv :=
  (powerOn_inv h.paramsLegal).setEnvironment _ s.draw s.sched s.draws

/-! ## The steps -/

section EncodePhases

theorem State.encodedWords_of_encHead (hph : s.phase = .encHead) : s.encodedWords = 0 := by
  simp [State.encodedWords, hph]

theorem State.encodedWords_of_encPix {i : Nat} (hph : s.phase = .encPix i) : s.encodedWords = 1 + 6 * i := by
  simp [State.encodedWords, hph]

theorem State.encodedWords_of_encTail (hph : s.phase = .encTail) : s.encodedWords = 1 + 6 * s.leds := by
  simp [State.encodedWords, hph]

/-- The phase that follows once `n` pixels are encoded is legal and claims the words of `n` pixels (R194, R195). -/
theorem State.nextPixel_legal {n : Nat} (hb : s.busy = true) (hn : n ≤ s.leds) :
    (s.setPhase (if n < s.leds then .encPix n else .encTail)).phaseLegal = true ∧
    (s.setPhase (if n < s.leds then .encPix n else .encTail)).encodedWords = 1 + 6 * n := by
  split_ifs with h
  · exact ⟨by simp [State.phaseLegal, hb, h], rfl⟩
  · obtain rfl : n = s.leds := by omega
    exact ⟨by simp [State.phaseLegal, hb], rfl⟩

end EncodePhases

/-- Every atomic transition keeps the invariants. -/
theorem Effect.inv {m : Move} (h : Effect s m t) (hinv : s.Inv) : t.Inv := by
  cases h with
  | idle => exact hinv
  | present p cmd hp => exact hinv.setPort (by simp [hp]) nofun nofun
  | take p rsp hp => exact hinv.setPort (by simp [hp]) nofun nofun
  | refuse p _ _ _ hp | getPixel p _ _ _ _ hp | lutRead p _ _ _ hp | fillNone p _ _ _ hp =>
    exact hinv.setPort_done hp nofun _
  | setPixel p _ _ index c hp _ _ hi => exact (hinv.setPixels_write hi c).setPort_done hp nofun _
  | fillStart p _ _ c hp _ _ h0 =>
    refine hinv.setPort (by simp [hp]) nofun fun _ _ he => ?_
    obtain ⟨-, rfl⟩ := PortState.filling.inj he
    exact h0
  | fillNext p _ c i hp hi =>
    refine (hinv.setPixels_write (by omega) c).setPort (by simp [hp]) nofun fun _ _ he => ?_
    obtain ⟨-, rfl⟩ := PortState.filling.inj he
    exact hi
  | fillLast p _ c i hp hi => exact (hinv.setPixels_write (by omega) c).setPort_done hp nofun _
  | openInstance p _ _ m count hp _ hl hc => exact (hinv.openInstance hl hc).setPort_done hp nofun _
  | closeInstance p _ _ hp _ _ ha => exact (hinv.closeInstance ha).setPort_done hp nofun _
  | acquire p _ _ hp _ hl hb => exact hinv.acquire hp hl hb
  | encHead hph hb =>
    obtain ⟨hlegal, hwords⟩ := State.nextPixel_legal hb (Nat.zero_le _)
    exact hinv.encode hb (State.encodedWords_of_encHead hph) (by rw [List.length_singleton, s.txWords_eq]; omega) hlegal
      hwords.le
  | encPix i c hph hb hi =>
    obtain ⟨hlegal, hwords⟩ := State.nextPixel_legal (n := i + 1) hb hi
    exact hinv.encode hb (State.encodedWords_of_encPix hph) (by rw [length_pixelSymbols, s.txWords_eq]; omega) hlegal
      (by rw [hwords, length_pixelSymbols]; omega)
  | encTail hph hb =>
    exact (hinv.encode hb (State.encodedWords_of_encTail hph) (by rw [List.length_replicate, s.txWords_eq])
      (by simp [State.phaseLegal, hb]) (by rw [List.length_replicate, ← s.txWords_eq]; exact le_rfl)).emit _
  | txWord k w hph hb hk =>
    have hwords : s.encodedWords = s.txWords := by simp [State.encodedWords, hph]
    exact (hinv.emit _).setPhase (by simpa [State.phaseLegal, hb] using hk)
      fun j hj => hinv.encodedWritten j (hwords ▸ hj)
  | txEnd k ok hph hb => exact (hinv.emit _).release hb _
  | reset => exact hinv.resetBlock

/-- Settles O15: a step is one of the atomic transitions (`step_effect`), and each keeps the invariants
(`Effect.inv`). -/
theorem stepKeepsTheInvariant : Obligations.StepKeepsTheInvariant := by
  intro s t hinv hstep
  obtain ⟨d, heff⟩ := step_effect hstep
  exact heff.inv (hinv.advance.setDraw d)

end Sys2Proof.Machine
end

