-- ==== Sys2Proof/Proofs/FrameInvariant.lean ====
section
/-!
PROOFS. TXBUF and the end of WIRE are the work of one encode pass (spec/20_memory.md R83, R84, spec/42_frame_encoder.md
R197): every step keeps it so, under any interleaving, and what follows for every state a run reaches (R48, R242).
-/

namespace Sys2Proof.Machine

variable {s t : State} {cs : List Color}

/-! ## The frame invariant, phase by phase -/

theorem State.frameInv_of_idle (hph : s.phase = .idle) : s.FrameInv cs := by simp [State.FrameInv, hph]

theorem State.frameInv_iff_of_encPix {i : Nat} (hph : s.phase = .encPix i) :
    s.FrameInv cs ↔ cs.length = i ∧ s.txbufHolds (0#16 :: cs.flatMap (pixelSymbols s.model)) := by
  simp [State.FrameInv, hph]

theorem State.frameInv_iff_of_encTail (hph : s.phase = .encTail) :
    s.FrameInv cs ↔ cs.length = s.leds ∧ s.txbufHolds (0#16 :: cs.flatMap (pixelSymbols s.model)) := by
  simp [State.FrameInv, hph]

theorem State.frameInv_iff_of_tx {k : Nat} (hph : s.phase = .tx k) :
    s.FrameInv cs ↔ cs.length = s.leds ∧ s.txbufHolds (frame s.model cs) ∧ ∃ earlier : List WireEvent,
      s.wire = earlier ++ .frameStart (16 * s.txWords) :: wordEvents 0 ((frame s.model cs).take k) := by
  simp [State.FrameInv, hph]

/-- Once `n` pixels are encoded the next phase holds them, whichever it is (R194, R195). -/
theorem State.frameInv_nextPixel {n : Nat} (hn : n ≤ s.leds) (hlen : cs.length = n)
    (hwords : s.txbufHolds (0#16 :: cs.flatMap (pixelSymbols s.model))) :
    (s.setPhase (if n < s.leds then .encPix n else .encTail)).FrameInv cs := by
  split_ifs with h
  · exact ⟨hlen, hwords⟩
  · exact ⟨hlen.trans (by simp only [State.setPhase_leds]; omega), hwords⟩

/-! ## The words written and the words sent -/

/-- Words written after those that TXBUF begins with. -/
theorem State.txbufHolds_writeAll {ws : List Symbol} {k : Nat} (h : s.txbufHolds ws) (hk : ws.length = k)
    (vs : List Symbol) : (s.setTxbuf (s.txbuf.writeAll k vs)).txbufHolds (ws ++ vs) := by
  subst hk
  intro j hj
  rw [List.length_append] at hj
  by_cases hlt : j < ws.length
  · rw [State.setTxbuf_txbuf, Memory.read_writeAll_outside _ _ (.inl hlt), List.getElem?_append_left hlt, h j hlt]
  · obtain ⟨i, rfl⟩ := Nat.exists_eq_add_of_le (Nat.le_of_not_lt hlt)
    rw [State.setTxbuf_txbuf, Memory.read_writeAll_written _ _ (by omega), List.getElem?_append_right (by omega),
      Nat.add_sub_cancel_left]

theorem State.txbufHolds_nil (s : State) : s.txbufHolds [] := fun _ hj => absurd hj (Nat.not_lt_zero _)

/-- The leading zero word and the pixels read so far, and then one pixel more (R195). -/
theorem encodedPrefix_append (m : StripModel) (cs : List Color) (c : Color) :
    (0#16 :: cs.flatMap (pixelSymbols m)) ++ pixelSymbols m c = 0#16 :: (cs ++ [c]).flatMap (pixelSymbols m) := by
  simp

theorem length_encodedPrefix (m : StripModel) (cs : List Color) :
    (0#16 :: cs.flatMap (pixelSymbols m)).length = 1 + 6 * cs.length := by
  rw [List.length_cons, length_flatMap_pixelSymbols, Nat.add_comm]

/-- R200. -/
theorem length_frame_eq_txWords (h : cs.length = s.leds) : (frame s.model cs).length = s.txWords := by
  rw [length_frame, h, s.txWords_eq, State.resetWords]
  omega

theorem wordEvents_append (k : Nat) (ws vs : List Symbol) :
    wordEvents k (ws ++ vs) = wordEvents k ws ++ wordEvents (k + ws.length) vs := by
  induction ws generalizing k with
  | nil => rfl
  | cons w ws ih => simp [wordEvents, ih, Nat.add_assoc, Nat.add_comm 1]

/-- The transport's next word extends the words sent (R237). -/
theorem wordEvents_take_succ {ws : List Symbol} {k : Nat} {w : Symbol} (hw : ws[k]? = some w) :
    wordEvents 0 (ws.take (k + 1)) = wordEvents 0 (ws.take k) ++ [WireEvent.word k w] := by
  have hk : k < ws.length := (List.getElem?_eq_some_iff.mp hw).1
  rw [List.take_add_one, hw, wordEvents_append, List.length_take_of_le hk.le, Nat.zero_add]
  rfl

/-! ## The colours read by the pass -/

theorem State.sampled_of_encHead (hm : s.nextMove = .engine) (hph : s.phase = .encHead) : s.sampled cs = [] := by
  simp [State.sampled, hm, hph]

theorem State.sampled_of_encPix {i : Nat} {c : Color} (hm : s.nextMove = .engine) (hph : s.phase = .encPix i)
    (hc : s.pixel.read i = some c) : s.sampled cs = cs ++ [c] := by
  simp [State.sampled, hm, hph, hc]

theorem State.sampled_of_other
    (h : s.nextMove ≠ .engine ∨ (s.phase ≠ .encHead ∧ ∀ i, s.phase ≠ .encPix i)) : s.sampled cs = cs := by
  unfold State.sampled
  split_ifs with hm
  · obtain ⟨hhead, hpix⟩ := h.resolve_left (not_not_intro hm)
    split
    next hph => exact absurd hph hhead
    next i hph => exact absurd hph (hpix i)
    all_goals rfl
  · rfl

/-- Every entry in use is written (R48 item 4). -/
theorem State.Inv.exists_pixel (hinv : s.Inv) {i : Nat} (hi : i < s.leds) : ∃ c, s.pixel.read i = some c :=
  Option.isSome_iff_exists.mp ((hinv.pixelWritten i).trans (decide_eq_true hi))

/-- So is the one that `ENC_PIX(i)` reads. -/
theorem State.Inv.pixel_of_encPix (hinv : s.Inv) {i : Nat} (hph : s.phase = .encPix i) : ∃ c, s.pixel.read i = some c :=
  hinv.exists_pixel (State.index_lt_leds_of_encPix hinv.rulesHold hph)

/-! ## Every step keeps it -/

/-- The engine has a step wherever it would read or start a pass. -/
theorem State.phase_of_engine_disabled (h : s.enabled .engine = false) :
    s.phase ≠ .encHead ∧ ∀ i, s.phase ≠ .encPix i := by
  cases hph : s.phase <;> simp [State.enabled, hph] at h ⊢

/-- What an atomic transition makes of the pass that has read `cs`: it starts a new one, it reads one colour more, or
it keeps the pass as it is or ends it. -/
theorem Effect.frameInv {m : Move} (h : Effect s m t) (hinv : s.Inv) (hf : s.FrameInv cs) :
    (m = .engine ∧ s.phase = .encHead ∧ t.FrameInv []) ∨
    (∃ i c, m = .engine ∧ s.phase = .encPix i ∧ s.pixel.read i = some c ∧ t.FrameInv (cs ++ [c])) ∨
    ((m ≠ .engine ∨ (s.phase ≠ .encHead ∧ ∀ i, s.phase ≠ .encPix i)) ∧ t.FrameInv cs) := by
  cases h with
  | idle _ hm =>
    refine .inr (.inr ⟨?_, hf⟩)
    by_cases hmove : m = .engine
    · exact .inr (State.phase_of_engine_disabled (hmove ▸ hm))
    · exact .inl hmove
  | present | take | refuse | getPixel | lutRead | setPixel | fillNone | fillStart | fillNext | fillLast =>
    exact .inr (.inr ⟨.inl nofun, hf⟩)
  | openInstance _ _ _ _ _ _ _ hl =>
    have hph := State.phase_eq_idle_of_free hinv.phaseInRules (hinv.uninitRegisters hl).1
    exact .inr (.inr ⟨.inl nofun, State.frameInv_of_idle hph⟩)
  | closeInstance _ _ _ _ _ _ ha =>
    have hph := State.phase_eq_idle_of_free hinv.phaseInRules (s.active_eq_false_iff.mp ha).1
    exact .inr (.inr ⟨.inl nofun, State.frameInv_of_idle hph⟩)
  | acquire | txEnd | reset => exact .inr (.inr ⟨.inl nofun, trivial⟩)
  | encHead hph =>
    have hword := State.txbufHolds_writeAll s.txbufHolds_nil rfl [0#16]
    exact .inl ⟨rfl, hph, State.frameInv_nextPixel (Nat.zero_le _) rfl hword⟩
  | encPix i c hph _ hi hc =>
    obtain ⟨hlen, hwords⟩ := (State.frameInv_iff_of_encPix hph).mp hf
    have hnext := State.txbufHolds_writeAll hwords (length_encodedPrefix ..) (pixelSymbols s.model c)
    rw [encodedPrefix_append, hlen] at hnext
    exact .inr (.inl ⟨i, c, rfl, hph, hc, State.frameInv_nextPixel hi (by simp [hlen]) hnext⟩)
  | encTail hph =>
    obtain ⟨hlen, hwords⟩ := (State.frameInv_iff_of_encTail hph).mp hf
    have hframe := State.txbufHolds_writeAll hwords (length_encodedPrefix ..) (List.replicate s.resetWords 0#16)
    rw [hlen] at hframe
    exact .inr (.inr ⟨.inr (by simp [hph]), hlen, hframe, s.wire, rfl⟩)
  | txWord k w hph _ hk hw =>
    obtain ⟨hlen, hwords, earlier, hwire⟩ := (State.frameInv_iff_of_tx hph).mp hf
    have hword : (frame s.model cs)[k]? = some w :=
      (hwords k ((length_frame_eq_txWords hlen).symm ▸ hk)).symm.trans hw
    refine .inr (.inr ⟨.inl nofun, hlen, hwords, earlier, ?_⟩)
    show s.wire ++ [WireEvent.word k w] = _ ++ WireEvent.frameStart (16 * s.txWords) :: _
    rw [hwire, State.setPhase_model, State.emit_model, wordEvents_take_succ hword, List.append_assoc, List.cons_append]

theorem State.frameInv_advance (hf : s.FrameInv cs) : s.advance.FrameInv cs := by
  unfold State.advance
  split <;> exact hf

/-- Settles O16: the step is an atomic transition, and `Effect.frameInv` says what each makes of the pass; the colours
read then are those `State.sampled` gives. -/
theorem stepKeepsTheFrameInvariant : Obligations.StepKeepsTheFrameInvariant := by
  intro s t cs hinv hf hstep
  refine ⟨?kept, fun hm hph => State.sampled_of_encHead hm hph, ?pixel, State.sampled_of_other⟩
  case kept =>
    obtain ⟨d, heff⟩ := step_effect hstep
    have hcases := heff.frameInv (hinv.advance.setDraw d) (State.frameInv_advance hf)
    simp only [State.setDraw_phase, State.advance_phase, State.setDraw_pixel, State.advance_pixel] at hcases
    obtain ⟨hm, hph, ht⟩ | ⟨i, c, hm, hph, hc, ht⟩ | ⟨hother, ht⟩ := hcases
    · rwa [State.sampled_of_encHead hm hph]
    · rwa [State.sampled_of_encPix hm hph hc]
    · rwa [State.sampled_of_other hother]
  case pixel =>
    intro i hm hph
    obtain ⟨c, hc⟩ := hinv.pixel_of_encPix hph
    exact ⟨c, hc, State.sampled_of_encPix hm hph hc, ((State.frameInv_iff_of_encPix hph).mp hf).1⟩

/-! ## The states a run reaches -/

/-- No step writes the parameters (R49). -/
theorem Effect.params_eq {m : Move} (h : Effect s m t) : t.params = s.params := by cases h <;> rfl

theorem step_params_eq (h : step s = .next t) : t.params = s.params := by
  obtain ⟨d, heff⟩ := step_effect h
  exact heff.params_eq.trans s.advance_params

/-- The invariants hold at power-on and every step keeps them. -/
theorem Reachable.invariants {c : Params} (hc : c.legal = true) (h : Reachable c s cs) :
    s.Inv ∧ s.FrameInv cs ∧ s.params = c := by
  induction h with
  | powerOn moves => exact ⟨(powerOn_inv hc).withMoves moves, trivial, rfl⟩
  | step s t cs _ hstep ih =>
    obtain ⟨hinv, hf, hparams⟩ := ih
    exact ⟨stepKeepsTheInvariant s t hinv hstep, (stepKeepsTheFrameInvariant s t cs hinv hf hstep).1,
      (step_params_eq hstep).trans hparams⟩

namespace State.Inv

/-- R48 item 2, of PHASE. -/
theorem busy_eq_false_iff_idle (h : s.Inv) : s.busy = false ↔ s.phase = .idle :=
  ⟨State.phase_eq_idle_of_free h.phaseInRules, State.busy_eq_false_of_idle h.phaseInRules⟩

/-- R48 item 2, of the owner. -/
theorem updating_iff_owner (h : s.Inv) (hb : s.busy = true) (p : Nat) :
    s.ports[p]? = some .updating ↔ p = s.owner := by
  refine ⟨fun hp => (h.updatingOwns p hp).2, ?_⟩
  rintro rfl
  exact h.ownerUpdating hb

/-- R48 item 2, of the ports. -/
theorem busy_eq_false_iff_none_updating (h : s.Inv) :
    s.busy = false ↔ ∀ p : Nat, s.ports[p]? ≠ some .updating := by
  refine ⟨fun hb p hp => absurd (h.updatingOwns p hp).1 (by simp [hb]), fun hnone => ?_⟩
  by_contra hb
  exact hnone s.owner (h.ownerUpdating (by simpa using hb))

/-- With no instance no fill is in progress (R48 item 1). -/
theorem not_filling_of_uninit (h : s.Inv) (hl : s.life = .uninit) (p : Nat) (c : Color) (i : Nat) :
    s.ports[p]? ≠ some (.filling c i) := by
  intro hp
  have hlt : i < s.ledCount.toNat := h.fillInRange p c i hp
  rw [(h.uninitRegisters hl).2.2] at hlt
  exact Nat.not_lt_zero i hlt

end State.Inv

/-- Settles O18: every reached state meets the invariants (`Reachable.invariants`), and each item of R48 is one of
them. -/
theorem reachableStatesMeetTheRules : Obligations.ReachableStatesMeetTheRules := by
  intro c s cs hc hreach
  obtain ⟨hinv, hf, rfl⟩ := hreach.invariants hc
  refine ⟨?uninit, hinv.busy_eq_false_iff_idle, hinv.busy_eq_false_iff_none_updating, hinv.updating_iff_owner,
    hinv.capacityHolds, ?pixels, ?words⟩
  case uninit =>
    intro hl
    obtain ⟨hb, hmodel, hcount⟩ := hinv.uninitRegisters hl
    exact ⟨hb, hinv.busy_eq_false_iff_idle.mp hb, hmodel, hcount, by rw [hinv.tcfgIsLife, hl]; rfl,
      fun p => ⟨hinv.busy_eq_false_iff_none_updating.mp hb p, hinv.not_filling_of_uninit hl p⟩⟩
  case pixels =>
    intro _ i hi
    exact Option.isSome_iff_ne_none.mp ((hinv.pixelWritten i).trans (decide_eq_true hi))
  case words =>
    intro k hph
    obtain ⟨hlen, hwords, -⟩ := (State.frameInv_iff_of_tx hph).mp hf
    have hcount : s.encodedWords = s.txWords := by simp [State.encodedWords, hph]
    exact ⟨hlen, fun j hj => ⟨hwords j (by rwa [length_frame_eq_txWords hlen]),
      Option.isSome_iff_ne_none.mp (hinv.encodedWritten j (hcount ▸ hj))⟩⟩

/-- A transport's completion with OK that releases the gate comes after the last word (R238), and adds its event to
WIRE. -/
theorem Effect.completed_of_released (h : Effect s (.transportEnd true) t) (hb : s.busy = true) (ht : t.busy = false) :
    s.phase = .tx s.txWords ∧ t.wire = s.wire ++ [WireEvent.frameEnd .ok] := by
  cases h with
  | idle => exact absurd (hb.symm.trans ht) nofun
  | txEnd k _ hph _ _ hok => exact ⟨hok rfl ▸ hph, rfl⟩

/-- Settles O55: in `TX(N)` the frame invariant says that WIRE ends with the hand-over and all `N` words of the frame
of the colours the pass has read. -/
theorem completedFrameIsOneEncodePass : Obligations.CompletedFrameIsOneEncodePass := by
  intro c s t cs hc hreach hb hm hstep ht
  obtain ⟨hinv, hf, -⟩ := hreach.invariants hc
  obtain ⟨d, heff⟩ := step_effect hstep
  rw [hm] at heff
  obtain ⟨hph, hend⟩ := heff.completed_of_released (by simpa using hb) ht
  simp only [State.setDraw_phase, State.advance_phase, State.setDraw_txWords, State.advance_txWords,
    State.setDraw_wire, State.advance_wire] at hph hend
  obtain ⟨hlen, -, earlier, hwire⟩ := (State.frameInv_iff_of_tx hph).mp hf
  rw [← length_frame_eq_txWords hlen, List.take_length] at hwire
  exact ⟨hlen, earlier, by rw [hend, hwire, length_frame_eq_txWords hlen]⟩

end Sys2Proof.Machine
end

