-- ==== Sys2Proof/Proofs/Transitions.lean ====
section
/-!
PROOFS. What each transition does to one piece of state, and what follows of any step: responses stay legal (R102,
R108), pixels change only by their commands (R162), the gate is taken and released only as R231 and R240 say, only the
engine writes TXBUF (R42), and WIRE only grows (R47).
-/

namespace Sys2Proof.Machine

variable {s t : State} {m : Move}

/-! ## Responses -/

theorem State.ResponsesLegal.setPort {p : Nat} {q : PortState} (h : s.ResponsesLegal)
    (hq : ∀ rsp, q = .done rsp → legalResponse rsp = true) : (s.setPort p q).ResponsesLegal := by
  intro r rsp hr
  obtain ⟨-, he⟩ | ⟨-, hr⟩ := State.port_setPort_eq_some hr
  · exact hq rsp he.symm
  · exact h r rsp hr

/-- A legal response may be put on any port. -/
theorem State.ResponsesLegal.setPort_done {p : Nat} {rsp : RspWord} (h : s.ResponsesLegal)
    (hrsp : legalResponse rsp = true) : (s.setPort p (.done rsp)).ResponsesLegal :=
  h.setPort fun _ he => PortState.done.inj he ▸ hrsp

theorem Effect.responsesLegal (h : Effect s m t) (hs : s.ResponsesLegal) : t.ResponsesLegal := by
  cases h with
  | idle | encHead | encPix | encTail | txWord => exact hs
  | present | take | fillStart | acquire => exact State.ResponsesLegal.setPort hs nofun
  | fillNext p _ c i => exact State.ResponsesLegal.setPort (s := s.setPixels _) hs nofun
  | refuse | setPixel | fillNone | fillLast | openInstance | closeInstance | txEnd =>
    exact State.ResponsesLegal.setPort_done hs (legalResponse_error _)
  | getPixel => exact hs.setPort_done (legalResponse_ok _ (colorData_low _))
  | lutRead => exact hs.setPort_done (legalResponse_ok _ (symbolData_low _))
  | reset => exact fun _ _ hp => absurd (powerOn_port hp) nofun

/-- Settles O17: every response a transition puts on a port has no data, or is that of GET_PIXEL or LUT_READ with the
status OK. -/
theorem stepKeepsResponsesLegal : Obligations.StepKeepsResponsesLegal := by
  intro s t hs hstep
  obtain ⟨d, heff⟩ := step_effect hstep
  refine heff.responsesLegal fun p rsp hp => hs p rsp ?_
  rwa [State.setDraw_ports, State.advance_ports] at hp

/-! ## The pixels -/

section Reads

variable {α : Type} {mem : Memory α} {k j n : Nat} {v x : α}

/-- A write gives a new value only to its own entry. -/
theorem Memory.written_of_read_write (h : (mem.write k v).read j = some x) (hold : mem.read j ≠ some x) :
    j = k ∧ v = x := by
  rw [Memory.read_write] at h
  split_ifs at h with hj
  · exact ⟨hj, Option.some.inj h⟩
  · exact absurd h hold

theorem Memory.written_of_read_fillBelow (h : (mem.fillBelow n v).read j = some x) (hold : mem.read j ≠ some x) :
    j < n ∧ v = x := by
  rw [Memory.read_fillBelow] at h
  split_ifs at h with hj
  · exact ⟨hj, Option.some.inj h⟩
  · exact absurd h hold

theorem Memory.read_ne_of_eq_nil (h : mem = []) : mem.read j ≠ some x := by simp [h]

end Reads

/-- What a transition does to PIXEL: nothing, SET_PIXEL's write, a fill's write, INIT's clear, or all entries become
unwritten (R162, R276). -/
theorem Effect.pixel_cases (h : Effect s m t) :
    t.pixel = s.pixel ∨ t.pixel = [] ∨ ∃ p tok, m = .port p tok ∧
      ((∃ w index c, s.ports[p]? = some (.pending w) ∧ decode w = .ok (.setPixel index c) ∧
          t.pixel = s.pixel.write index.toNat c) ∨
       (∃ c i, s.ports[p]? = some (.filling c i) ∧ t.pixel = s.pixel.write i c) ∨
       (∃ w md n, s.ports[p]? = some (.pending w) ∧ decode w = .ok (.init md n) ∧ s.life = .uninit ∧
          t.pixel = s.pixel.fillBelow n.toNat Color.black)) := by
  cases h with
  | idle | present | take | refuse | getPixel | lutRead | fillNone | fillStart | acquire | encHead | encPix | encTail
  | txWord | txEnd => exact .inl rfl
  | closeInstance | reset => exact .inr (.inl rfl)
  | setPixel p tok w index c hp hd => exact .inr (.inr ⟨p, tok, rfl, .inl ⟨w, index, c, hp, hd, rfl⟩⟩)
  | fillNext p tok c i hp | fillLast p tok c i hp => exact .inr (.inr ⟨p, tok, rfl, .inr (.inl ⟨c, i, hp, rfl⟩)⟩)
  | openInstance p tok w md n hp hd hl => exact .inr (.inr ⟨p, tok, rfl, .inr (.inr ⟨w, md, n, hp, hd, hl, rfl⟩)⟩)

/-- Settles O32: of the ways of `Effect.pixel_cases` that write PIXEL, each gives a new colour only to the entries the
statement names. -/
theorem pixelsChangeOnlyByTheirCommands : Obligations.PixelsChangeOnlyByTheirCommands := by
  intro s t i c hstep ht hs
  obtain ⟨d, heff⟩ := step_effect hstep
  have hcases := heff.pixel_cases
  simp only [State.setDraw_pixel, State.advance_pixel, State.setDraw_ports, State.advance_ports, State.setDraw_life,
    State.advance_life] at hcases
  obtain hsame | hnone | ⟨p, tok, hm, ⟨w, index, c', hp, hd, hpix⟩ | ⟨c', i', hp, hpix⟩ |
    ⟨w, md, n, hp, hd, hl, hpix⟩⟩ := hcases
  · exact absurd (hsame ▸ ht) hs
  · exact absurd ht (Memory.read_ne_of_eq_nil hnone)
  · obtain ⟨rfl, rfl⟩ := Memory.written_of_read_write (hpix ▸ ht) hs
    exact ⟨p, tok, hm, .inl ⟨w, index, hp, hd, rfl⟩⟩
  · obtain ⟨rfl, rfl⟩ := Memory.written_of_read_write (hpix ▸ ht) hs
    exact ⟨p, tok, hm, .inr (.inl hp)⟩
  · obtain ⟨hi, rfl⟩ := Memory.written_of_read_fillBelow (hpix ▸ ht) hs
    exact ⟨p, tok, hm, .inr (.inr ⟨w, md, n, hp, hd, hi, rfl, hl⟩)⟩

/-! ## The gate -/

/-- What a transition does to the gate: nothing, an UPDATE takes it, or a reset or the transport's completion leaves it
free (R231, R240). -/
theorem Effect.busy_cases (h : Effect s m t) :
    t.busy = s.busy ∨
    (t.busy = true ∧ ∃ p tok w, m = .port p tok ∧ s.ports[p]? = some (.pending w) ∧ decode w = .ok .update ∧
      s.life = .ready ∧ t.owner = p ∧ t.phase = .encHead ∧ t.ports[p]? = some .updating) ∨
    (t.busy = false ∧ (m = .reset ∨ ∃ ok k, m = .transportEnd ok ∧ s.phase = .tx k ∧ t.phase = .idle ∧
      t.wire = s.wire ++ [WireEvent.frameEnd (transmitStatus ok)] ∧ t.owner = s.owner)) := by
  cases h with
  | idle | present | take | refuse | getPixel | lutRead | setPixel | fillNone | fillStart | fillNext | fillLast
  | openInstance | closeInstance | encHead | encPix | encTail | txWord => exact .inl rfl
  | acquire p tok w hp hd hl =>
    have hupd := State.port_setPort_same ((s.takeGate p).setPhase .encHead) p .updating
      (List.getElem?_eq_some_iff.mp hp).1
    exact .inr (.inl ⟨rfl, p, tok, w, rfl, hp, hd, hl, rfl, rfl, hupd⟩)
  | txEnd k ok hph => exact .inr (.inr ⟨rfl, .inr ⟨ok, k, rfl, hph, rfl, rfl, rfl⟩⟩)
  | reset => exact .inr (.inr ⟨rfl, .inl rfl⟩)

/-- Settles O42: of the ways of `Effect.busy_cases` only the acceptance of an UPDATE sets BUSY. -/
theorem onlyAnUpdateTakesTheGate : Obligations.OnlyAnUpdateTakesTheGate := by
  intro s t hstep hs ht
  obtain ⟨d, heff⟩ := step_effect hstep
  have hcases := heff.busy_cases
  simp only [State.setDraw_busy, State.advance_busy, State.setDraw_ports, State.advance_ports, State.setDraw_life,
    State.advance_life] at hcases
  obtain hsame | ⟨-, hupdate⟩ | ⟨hfree, -⟩ := hcases
  · simp [hs, ht] at hsame
  · exact hupdate
  · simp [ht] at hfree

/-- Settles O43: of the ways of `Effect.busy_cases` only a reset and the transport's completion clear BUSY. -/
theorem gateIsReleasedOnlyAtTheEnd : Obligations.GateIsReleasedOnlyAtTheEnd := by
  intro s t hstep hs ht
  obtain ⟨d, heff⟩ := step_effect hstep
  have hcases := heff.busy_cases
  simp only [State.setDraw_busy, State.advance_busy, State.setDraw_phase, State.advance_phase, State.setDraw_wire,
    State.advance_wire, State.setDraw_owner, State.advance_owner] at hcases
  obtain hsame | ⟨htaken, -⟩ | ⟨-, hreleased⟩ := hcases
  · simp [hs, ht] at hsame
  · simp [ht] at htaken
  · exact hreleased

/-! ## TXBUF and WIRE -/

/-- What a transition does to TXBUF: nothing, all words become unwritten, or an encode step writes it (R42). -/
theorem Effect.txbuf_cases (h : Effect s m t) :
    t.txbuf = s.txbuf ∨ t.txbuf = [] ∨
    (m = .engine ∧ s.busy = true ∧ s.phase ≠ .idle ∧ ∀ j, s.phase ≠ .tx j) := by
  cases h with
  | idle | present | take | refuse | getPixel | lutRead | setPixel | fillNone | fillStart | fillNext | fillLast
  | openInstance | acquire | txWord | txEnd => exact .inl rfl
  | closeInstance | reset => exact .inr (.inl rfl)
  | encHead hph hb | encPix _ _ hph hb | encTail hph hb => exact .inr (.inr ⟨rfl, hb, by simp [hph], by simp [hph]⟩)

/-- Settles O54: of the ways of `Effect.txbuf_cases` only the engine's gives a word a value. -/
theorem onlyTheEngineWritesTxbuf : Obligations.OnlyTheEngineWritesTxbuf := by
  intro s t k w hstep ht hs
  obtain ⟨d, heff⟩ := step_effect hstep
  have hcases := heff.txbuf_cases
  simp only [State.setDraw_txbuf, State.advance_txbuf, State.setDraw_busy, State.advance_busy, State.setDraw_phase,
    State.advance_phase] at hcases
  obtain hsame | hnone | hengine := hcases
  · exact absurd (hsame ▸ ht) hs
  · exact absurd ht (Memory.read_ne_of_eq_nil hnone)
  · exact hengine

/-- What a transition does to WIRE: nothing, or one more event at its end. -/
theorem Effect.wire_cases (h : Effect s m t) : t.wire = s.wire ∨ ∃ e, t.wire = s.wire ++ [e] := by
  cases h with
  | idle | present | take | refuse | getPixel | lutRead | setPixel | fillNone | fillStart | fillNext | fillLast
  | openInstance | closeInstance | acquire | encHead | encPix => exact .inl rfl
  | encTail | txWord | txEnd | reset => exact .inr ⟨_, rfl⟩

/-- Settles O56. -/
theorem wireIsAppendOnly : Obligations.WireIsAppendOnly := by
  intro s t hstep
  obtain ⟨d, heff⟩ := step_effect hstep
  obtain hsame | ⟨e, he⟩ := heff.wire_cases
  · exact ⟨[], by decide, by simpa using hsame⟩
  · exact ⟨[e], by simp, by simpa using he⟩

end Sys2Proof.Machine
end

