-- ==== Sys2Proof/Proofs/Line.lean ====
section
/-!
PROOFS. The statements about what goes onto the data line: the frame's length and its zero words (R200), a pixel's
protocol bits (R203), the word and the byte view (R75, R245), and the low runs between frames (R201, R202, R246).
-/

namespace Sys2Proof.Machine

/-! ## The frame's length and its zero words -/

/-- Every symbol of the Timing Table has a high slot (R141). -/
theorem lut_ne_zero : ∀ n : Nibble, lut n ≠ 0#16 := by decide

theorem exists_lut_of_mem_pixelSymbols {m : StripModel} {c : Color} {w : Symbol} (h : w ∈ pixelSymbols m c) :
    ∃ n, w = lut n := by
  obtain ⟨ch, -, hw⟩ := List.mem_flatMap.mp h
  obtain rfl | rfl : w = lut (highNibble (ch.of c)) ∨ w = lut (lowNibble (ch.of c)) := by
    simpa [channelSymbols] using hw
  · exact ⟨_, rfl⟩
  · exact ⟨_, rfl⟩

/-- C1: the zero words of a frame are its leading word and its reset gap. -/
theorem count_zero_frame (m : StripModel) (cs : List Color) : (frame m cs).count 0#16 = resetDelay m + 1 := by
  have hpixels : (cs.flatMap (pixelSymbols m)).count 0#16 = 0 := by
    refine List.count_eq_zero.mpr fun hmem => ?_
    obtain ⟨c, -, hc⟩ := List.mem_flatMap.mp hmem
    obtain ⟨n, hn⟩ := exists_lut_of_mem_pixelSymbols hc
    exact lut_ne_zero n hn.symm
  rw [frame, List.count_cons_self, List.count_append, hpixels, List.count_replicate_self, Nat.zero_add]

/-- Settles O46. -/
theorem frameHasTheSizingFormulasLength : Obligations.FrameHasTheSizingFormulasLength :=
  fun cs => ⟨length_frame .modelA cs, length_frame .modelB cs, count_zero_frame .modelA cs,
    count_zero_frame .modelB cs, fun _ h => length_frame_eq_txWords h.symm⟩

/-! ## A pixel's protocol bits -/

/-- The symbols of a list of blocks go out block by block. -/
theorem lineOf_flatMap {α : Type} (l : List α) (f : α → List Symbol) :
    lineOf (l.flatMap f) = l.flatMap fun a => lineOf (f a) :=
  List.flatMap_assoc

theorem getLsbD_highNibble (v : Byte) {i : Nat} (hi : i < 4) : (highNibble v).getLsbD i = v.getLsbD (4 + i) := by
  simp [highNibble, hi]

theorem getLsbD_lowNibble (v : Byte) {i : Nat} (hi : i < 4) : (lowNibble v).getLsbD i = v.getLsbD i := by
  simp [lowNibble, hi]

theorem channelBits_eq (v : Byte) :
    channelBits v = [v.getLsbD 7, v.getLsbD 6, v.getLsbD 5, v.getLsbD 4, v.getLsbD 3, v.getLsbD 2, v.getLsbD 1,
      v.getLsbD 0] := rfl

/-- A channel's two symbols are the pulses of its bits: the high nibble goes first, each nibble from bit 3 on. -/
theorem lineOf_channelSymbols (v : Byte) : lineOf (channelSymbols v) = (channelBits v).flatMap pulse := by
  have hline : lineOf (channelSymbols v) = slots (lut (highNibble v)) ++ (slots (lut (lowNibble v)) ++ []) := rfl
  rw [hline, slots_lut, slots_lut, channelBits_eq]
  simp only [getLsbD_highNibble, getLsbD_lowNibble, Nat.reduceLT, Nat.reduceAdd, List.flatMap_cons, List.flatMap_nil,
    List.append_assoc, List.append_nil]

theorem length_channelOrder (m : StripModel) : (channelOrder m).length = 3 := by cases m <;> rfl

/-- Settles O58: channel by channel (`lineOf_channelSymbols`), in the model's order on both sides. -/
theorem pixelGoesOutBitSevenFirst : Obligations.PixelGoesOutBitSevenFirst := by
  intro m c
  have hbits : ∀ ch : Channel, (channelBits (ch.of c)).length = 8 := fun _ => rfl
  refine ⟨?line, ?count⟩
  case line =>
    calc lineOf (pixelSymbols m c)
      _ = (channelOrder m).flatMap fun ch => lineOf (channelSymbols (ch.of c)) := lineOf_flatMap ..
      _ = (channelOrder m).flatMap fun ch => (channelBits (ch.of c)).flatMap pulse :=
        List.flatMap_congr fun ch _ => lineOf_channelSymbols (ch.of c)
      _ = (pixelBits m c).flatMap pulse := List.flatMap_assoc.symm
  case count => rw [pixelBits, length_flatMap_of_blocks hbits, length_channelOrder]

/-! ## The word view and the byte view -/

theorem length_slots {n : Nat} (w : BitVec n) : (slots w).length = n := by simp [slots]

theorem slots_getElem? {n b : Nat} (w : BitVec n) (hb : b < n) : (slots w)[b]? = some (w.getLsbD b) := by
  simp [slots, hb]

theorem append_symbolBytes (w : Symbol) : w.extractLsb' 8 8 ++ w.extractLsb' 0 8 = w := by
  apply BitVec.eq_of_getLsbD_eq
  intro i hi
  rw [BitVec.getLsbD_append, BitVec.getLsbD_extractLsb', BitVec.getLsbD_extractLsb']
  by_cases hlow : i < 8
  · simp [hlow]
  · simp [hlow, show i - 8 < 8 by omega, show 8 + (i - 8) = i by omega]

/-- R75: the low byte of a word goes out first, as its low bits do. -/
theorem flatMap_slots_symbolBytes (w : Symbol) : ((symbolBytes w).flatMap fun y => slots y) = slots w := by
  have hbytes : ((symbolBytes w).flatMap fun y => slots y) =
      slots (w.extractLsb' 0 8) ++ slots (w.extractLsb' 8 8) := by
    simp [symbolBytes]
  rw [hbytes, ← slots_append, append_symbolBytes]

/-- Settles O59: both views are blocks of one length, 16 slots and 2 bytes a word. -/
theorem wordAndByteViewsSendTheSameSlots : Obligations.WordAndByteViewsSendTheSameSlots := by
  intro ws
  have hbytes : ∀ w, (symbolBytes w).length = 2 := fun _ => rfl
  refine ⟨length_flatMap_of_blocks length_slots ws, fun k w b hk hb => ?slot, length_flatMap_of_blocks hbytes ws,
    ?bytes⟩
  case slot => exact (getElem?_flatMap_of_blocks length_slots hk hb).trans (slots_getElem? w hb)
  case bytes => exact List.flatMap_assoc.trans (List.flatMap_congr fun w _ => flatMap_slots_symbolBytes w)

/-! ## The low runs -/

theorem leadingLow_replicate_append (n : Nat) (l : List Bool) :
    leadingLow (List.replicate n false ++ l) = n + leadingLow l := by
  unfold leadingLow
  rw [List.takeWhile_append_of_pos (by simp), List.length_append, List.length_replicate]

theorem trailingLow_append_replicate (l : List Bool) (n : Nat) :
    trailingLow (l ++ List.replicate n false) = n + trailingLow l := by
  have hmirror : ∀ l, trailingLow l = leadingLow l.reverse := fun _ => rfl
  rw [hmirror, hmirror, List.reverse_append, List.reverse_replicate, leadingLow_replicate_append]

theorem lineOf_replicate_zero (n : Nat) : lineOf (List.replicate n 0#16) = List.replicate (16 * n) false := by
  have hzero : slots 0#16 = List.replicate 16 false := by decide
  induction n with
  | zero => rfl
  | succ n ih =>
    rw [List.replicate_succ, lineOf_cons, ih, hzero, List.replicate_append_replicate, Nat.mul_succ, Nat.add_comm]

/-- Every pulse ends low (R142), so every symbol of the Timing Table does. -/
theorem slots_lut_ends_low (n : Nibble) : ∃ l, slots (lut n) = l ++ [false] := by
  have hpulse : ∀ b, pulse b = [true, b, b] ++ [false] := by decide
  rw [slots_lut, hpulse (n.getLsbD 0), ← List.append_assoc]
  exact ⟨_, rfl⟩

theorem lineOf_pixelSymbols_ends_low (m : StripModel) (c : Color) : ∃ l, lineOf (pixelSymbols m c) = l ++ [false] := by
  have hlast : ∃ ws, pixelSymbols m c = ws ++ [lut (lowNibble c.b)] := by
    cases m <;> exact ⟨[_, _, _, _, _], rfl⟩
  obtain ⟨ws, hws⟩ := hlast
  obtain ⟨l, hl⟩ := slots_lut_ends_low (lowNibble c.b)
  refine ⟨lineOf ws ++ l, ?_⟩
  rw [hws, lineOf_append, lineOf_cons, hl, List.append_assoc]
  simp [lineOf]

/-- R201: the last slot of the last pixel is low, and so are the 16 of every word of the reset gap. -/
theorem lineOf_frame_ends_low (m : StripModel) {cs : List Color} (h : cs ≠ []) :
    ∃ l, lineOf (frame m cs) = l ++ List.replicate (16 * resetDelay m + 1) false := by
  obtain ⟨cs, c, rfl⟩ := (List.eq_nil_or_concat' cs).resolve_left h
  obtain ⟨l, hl⟩ := lineOf_pixelSymbols_ends_low m c
  refine ⟨slots 0#16 ++ lineOf (cs.flatMap (pixelSymbols m)) ++ l, ?_⟩
  have hlow : List.replicate (16 * resetDelay m + 1) false = [false] ++ List.replicate (16 * resetDelay m) false := rfl
  rw [hlow, frame, List.flatMap_append, List.flatMap_singleton, lineOf_cons, lineOf_append, lineOf_append, hl,
    lineOf_replicate_zero]
  simp only [List.append_assoc]

/-- The next frame begins with its leading zero word (R191). -/
theorem leadingLow_frame (m : StripModel) (cs : List Color) : 16 ≤ leadingLow (lineOf (frame m cs)) := by
  have hzero : slots 0#16 = List.replicate 16 false := by decide
  rw [frame, lineOf_cons, hzero, leadingLow_replicate_append]
  omega

/-- R201: the low run at the end of a frame, and what idle time adds to it (R202). -/
theorem trailingLow_frame_idle (m : StripModel) {cs : List Color} (h : cs ≠ []) (idle : Nat) :
    16 * resetDelay m + 1 + idle ≤ trailingLow (lineOf (frame m cs) ++ List.replicate idle false) := by
  obtain ⟨l, hl⟩ := lineOf_frame_ends_low m h
  rw [trailingLow_append_replicate, hl, trailingLow_append_replicate]
  omega

theorem trailingLow_frame (m : StripModel) {cs : List Color} (h : cs ≠ []) :
    16 * resetDelay m + 1 ≤ trailingLow (lineOf (frame m cs)) := by
  simpa using trailingLow_frame_idle m h 0

/-- Settles O60: a frame with a pixel ends low (`trailingLow_frame_idle`) and every frame begins low
(`leadingLow_frame`); over WIRE the line is the rests and the words, one after another. -/
theorem lowRunOfTheResetGap : Obligations.LowRunOfTheResetGap := by
  refine ⟨fun cs cs' idle h => ⟨trailingLow_frame .modelA h, trailingLow_frame .modelB h, ?gapA, ?gapB⟩, fun _ => rfl,
    ?history⟩
  case gapA =>
    have hend : 49 + idle ≤ _ := trailingLow_frame_idle .modelA h idle
    have hstart := leadingLow_frame .modelA cs'
    omega
  case gapB =>
    have hend : 481 + idle ≤ _ := trailingLow_frame_idle .modelB h idle
    have hstart := leadingLow_frame .modelB cs'
    omega
  case history =>
    intro rest ws ws' b b' st st'
    simp only [List.cons_append, List.append_assoc, lineFrom, LineNow.after, lineFrom_wordEvents,
      restSlots, idleLevel]

end Sys2Proof.Machine
end

