-- ==== Sys2Proof/Proofs/Progress.lean ====
section
/-!
PROOFS. Which moves have a step: a move that has none leaves the block as it is (log entry 3), every move answers a next
state under the invariants (R316), some move is enabled until the run is over (R353, R354); and the conditions of R316
in which a move faults.
-/

namespace Sys2Proof.Machine

variable {s : State}

/-! ## Moves that are not enabled -/

theorem hostPresent_of_disabled {p : Nat} {cmd : CmdWord} (h : s.enabled (.present p cmd) = false) :
    hostPresent p cmd s = s := if_neg (of_decide_eq_false h)

theorem hostTake_of_disabled {p : Nat} (h : s.enabled (.take p) = false) : hostTake p s = s :=
  if_neg (by simpa [State.enabled] using h)

/-- A port without a step is at rest or updating, or holds an UPDATE (R232). -/
theorem portStep_of_disabled {p : Nat} (h : s.portEnabled p = false) : portStep p s = .next s := by
  cases hp : s.ports[p]? with
  | none => simp [portStep, hp]
  | some q =>
    cases q with
    | idle | updating | done => simp [portStep, hp]
    | filling c i => simp [State.portEnabled, hp] at h
    | pending w =>
      cases hd : decode w with
      | error why => simp [State.portEnabled, hp, hd] at h
      | ok i =>
        have hheld : i = .update ∧ s.life = .ready ∧ s.busy = true := by
          simpa [State.portEnabled, hp, hd, and_assoc] using h
        obtain ⟨rfl, hl, hb⟩ := hheld
        exact (portStep_of_command hp hd).trans (execUpdate_of_taken hl hb)

theorem engineStep_of_disabled (h : s.enabled .engine = false) : engineStep s = .next s := by
  cases hph : s.phase with
  | idle | tx => simp [engineStep, hph]
  | encHead | encPix | encTail => simp [State.enabled, hph] at h

theorem transportWordStep_of_disabled (h : s.enabled .transportWord = false) : transportWordStep s = .next s := by
  cases hph : s.phase with
  | idle | encHead | encPix | encTail => simp [transportWordStep, hph]
  | tx k =>
    have hk : ¬ k < s.txWords := by simpa [State.enabled, hph] using h
    simp [transportWordStep, hph, hk]

theorem transportEndStep_of_disabled {ok : Bool} (h : s.enabled (.transportEnd ok) = false) :
    transportEndStep ok s = .next s := by
  cases hph : s.phase with
  | idle | encHead | encPix | encTail => simp [transportEndStep, hph]
  | tx k =>
    have hok : ok = true ∧ k ≠ s.txWords := by simpa [State.enabled, hph] using h
    simp [transportEndStep, hph, hok]

/-- Settles O11: inside the rules the move is its agent's step, and an agent without an enabled step answers the state
it was given; the draw is the move's own. -/
theorem disabledMoveLeavesTheBlock : Obligations.DisabledMoveLeavesTheBlock := by
  intro s m hinv hm
  rw [moveStep_of_rulesHold hinv.rulesHold]
  cases m with
  | present p cmd => exact ⟨s.draw, congrArg _ (hostPresent_of_disabled hm)⟩
  | take p => exact ⟨s.draw, congrArg _ (hostTake_of_disabled hm)⟩
  | port p tok => exact ⟨_, portStep_of_disabled hm⟩
  | engine => exact ⟨s.draw, engineStep_of_disabled hm⟩
  | transportWord => exact ⟨s.draw, transportWordStep_of_disabled hm⟩
  | transportEnd ok => exact ⟨s.draw, transportEndStep_of_disabled hm⟩
  | reset => cases hm

/-! ## No step stops -/

/-- The two commands that read or write an entry check the index before they do. -/
theorem State.Inv.exec_progress (h : s.Inv) (i : Instr) : ∃ t, exec i s = .next t := by
  cases i with
  | init m count => simp only [exec, execInit]; split_ifs <;> exact ⟨_, rfl⟩
  | teardown => simp only [exec, execTeardown]; split_ifs <;> exact ⟨_, rfl⟩
  | fillAll c => simp only [exec, execFillAll]; split_ifs <;> exact ⟨_, rfl⟩
  | update => simp only [exec, execUpdate]; split_ifs <;> exact ⟨_, rfl⟩
  | lutRead n => exact ⟨_, rfl⟩
  | setPixel index c =>
    simp only [exec, execSetPixel]
    split_ifs with hl hi
    · exact ⟨_, rfl⟩
    · exact ⟨_, rfl⟩
    · rw [writePixel_of_fits (by simpa [State.outOfRange] using hi) h.ledsFit]
      exact ⟨_, rfl⟩
  | getPixel index =>
    simp only [exec, execGetPixel]
    split_ifs with hl hi
    · exact ⟨_, rfl⟩
    · exact ⟨_, rfl⟩
    · have hlt : index.toNat < s.leds := by simpa [State.outOfRange] using hi
      obtain ⟨c, hc⟩ := h.exists_pixel hlt
      rw [readPixel_of_written hlt h.ledsFit hc]
      exact ⟨_, rfl⟩

theorem State.Inv.portStep_progress (h : s.Inv) (p : Nat) : ∃ t, portStep p s = .next t := by
  cases hp : s.ports[p]? with
  | none => exact ⟨s, by simp [portStep, hp]⟩
  | some q =>
    cases q with
    | idle | updating | done => exact ⟨s, by simp [portStep, hp]⟩
    | filling c i =>
      rw [portStep_of_filling hp]
      exact ⟨_, fillStep_of_inRange (h.fillInRange p c i hp) h.ledsFit⟩
    | pending w =>
      cases hd : decode w with
      | error why => exact ⟨_, portStep_of_illegal hp hd⟩
      | ok i =>
        rw [portStep_of_command hp hd]
        exact h.exec_progress i

theorem State.Inv.capacityHolds_of_phase (h : s.Inv) (hph : s.phase ≠ .idle) : s.capacityHolds :=
  h.capacityHolds (h.life_eq_ready (State.busy_of_phase_ne_idle h.phaseInRules hph))

theorem State.Inv.engineStep_progress (h : s.Inv) : ∃ t, engineStep s = .next t := by
  cases hph : s.phase with
  | idle | tx => exact ⟨s, engineStep_of_disabled (by simp [State.enabled, hph])⟩
  | encHead =>
    rw [engineStep_encHead hph]
    exact ⟨_, encHeadStep_of_capacityHolds (h.capacityHolds_of_phase (by simp [hph]))⟩
  | encPix i =>
    obtain ⟨c, hc⟩ := h.pixel_of_encPix hph
    rw [engineStep_encPix hph]
    exact ⟨_, encPixStep_of_capacityHolds (h.capacityHolds_of_phase (by simp [hph]))
      (State.index_lt_leds_of_encPix h.rulesHold hph) hc⟩
  | encTail =>
    rw [engineStep_encTail hph]
    exact ⟨_, encTailStep_of_capacityHolds (h.capacityHolds_of_phase (by simp [hph]))⟩

/-- In `TX(k)` every word in use is written (R48 item 5). -/
theorem State.Inv.exists_word (h : s.Inv) {j k : Nat} (hph : s.phase = .tx k) (hj : j < s.txWords) :
    ∃ w, s.txbuf.read j = some w :=
  Option.isSome_iff_exists.mp (h.encodedWritten j (by simpa [State.encodedWords, hph] using hj))

theorem State.Inv.transportWordStep_progress (h : s.Inv) : ∃ t, transportWordStep s = .next t := by
  cases hm : s.enabled .transportWord with
  | false => exact ⟨s, transportWordStep_of_disabled hm⟩
  | true =>
    obtain ⟨k, hph, hk⟩ : ∃ k, s.phase = .tx k ∧ k < s.txWords := by
      cases hph : s.phase with
      | tx k => exact ⟨k, rfl, by simpa [State.enabled, hph] using hm⟩
      | idle | encHead | encPix | encTail => simp [State.enabled, hph] at hm
    obtain ⟨w, hw⟩ := h.exists_word hph hk
    exact ⟨_, transportWordStep_of_word hph hk hw⟩

theorem finishTransmission_of_updating {ok : Bool} (ho : s.ports[s.owner]? = some .updating) :
    finishTransmission ok s = .next (respond s.owner (transmitStatus ok) 0#28
      ((s.emit (.frameEnd (transmitStatus ok))).releaseGate.setPhase .idle)) := if_pos ho

/-- R238: with OK after the last word, with TRANSMIT_ERROR at any. -/
theorem transportEndStep_of_tx {ok : Bool} {k : Nat} (hph : s.phase = .tx k) (hok : ok = true → k = s.txWords) :
    transportEndStep ok s = finishTransmission ok s := by
  have hguard : ok = false ∨ k = s.txWords := by
    cases ok with
    | false => exact .inl rfl
    | true => exact .inr (hok rfl)
  simp only [transportEndStep, hph]
  exact if_pos hguard

theorem State.Inv.transportEndStep_progress (h : s.Inv) (ok : Bool) : ∃ t, transportEndStep ok s = .next t := by
  cases hm : s.enabled (.transportEnd ok) with
  | false => exact ⟨s, transportEndStep_of_disabled hm⟩
  | true =>
    obtain ⟨k, hph, hok⟩ : ∃ k, s.phase = .tx k ∧ (ok = true → k = s.txWords) := by
      cases hph : s.phase with
      | tx k => exact ⟨k, rfl, fun hok => by simpa [State.enabled, hph, hok] using hm⟩
      | idle | encHead | encPix | encTail => simp [State.enabled, hph] at hm
    have hb : s.busy = true := State.busy_of_phase_ne_idle h.phaseInRules (by simp [hph])
    rw [transportEndStep_of_tx hph hok]
    exact ⟨_, finishTransmission_of_updating (h.ownerUpdating hb)⟩

/-- Settles O19: the invariants put the state inside the rules, and under them the step of each agent answers a next
state. -/
theorem noStepStops : Obligations.NoStepStops := by
  intro s hinv
  have h := hinv.advance
  rw [step, moveStep_of_rulesHold h.rulesHold]
  cases s.nextMove with
  | present | take | reset => exact ⟨_, rfl⟩
  | port p tok => exact (h.setDraw _).portStep_progress p
  | engine => exact h.engineStep_progress
  | transportWord => exact h.transportWordStep_progress
  | transportEnd ok => exact h.transportEndStep_progress ok

/-! ## No deadlock -/

/-- While PHASE is not IDLE the engine or the transport has a step. -/
theorem State.exists_enabled_of_phase_ne_idle (hph : s.phase ≠ .idle) :
    ∃ m : Move, m.ofBlock = true ∧ s.enabled m = true := by
  by_contra hnone
  have hstill : ∀ m : Move, m.ofBlock = true → s.enabled m = false := by simpa using hnone
  exact hph (State.phase_eq_idle_iff.mpr ⟨hstill .engine rfl, fun ok => hstill (.transportEnd ok) rfl⟩)

/-- A port that is working has a step, or waits for an update that is in flight. -/
theorem State.Inv.enabled_or_busy (h : s.Inv) {p : Nat} {q : PortState} (hp : s.ports[p]? = some q)
    (hq : q.atRest = false) : s.portEnabled p = true ∨ s.busy = true := by
  cases q with
  | idle | done => cases hq
  | filling => exact .inl (by simp [State.portEnabled, hp])
  | updating => exact .inr (h.updatingOwns p hp).1
  | pending w =>
    cases hb : s.busy with
    | true => exact .inr rfl
    | false => exact .inl (by cases hd : decode w <;> simp [State.portEnabled, hp, hd, hb])

/-- Settles O22: a run that is not over has PHASE outside IDLE, where the engine or the transport has a step, or a port
that is working (`State.Inv.enabled_or_busy`). -/
theorem noDeadlock : Obligations.NoDeadlock := by
  intro s hinv hover
  by_cases hph : s.phase = .idle
  · have hfree : s.busy = false := hinv.busy_eq_false_iff_idle.mpr hph
    obtain ⟨p, q, hp, hq⟩ : ∃ (p : Nat) (q : PortState), s.ports[p]? = some q ∧ q.atRest = false := by
      by_contra hnone
      refine absurd (s.runOver_iff.mpr ⟨fun p q hp => ?_, hfree, hph⟩) (by simp [hover])
      by_contra hq
      exact hnone ⟨p, q, hp, by simpa using hq⟩
    obtain hport | hbusy := hinv.enabled_or_busy hp hq
    · exact ⟨.port p true, rfl, hport⟩
    · exact absurd hbusy (by simp [hfree])
  · exact State.exists_enabled_of_phase_ne_idle hph

/-! ## The conditions of R316 -/

section Faults

variable {m : Move}

theorem checked_of_phase_illegal (h : s.phaseLegal = false) (r : Host.Outcome State Fault Refusal) :
    checked s r = .fault .phaseOutsideRules := if_neg (by simp [h])

theorem checked_of_ports_illegal (h : s.phaseLegal = true) (hp : s.portsLegal = false)
    (r : Host.Outcome State Fault Refusal) : checked s r = .fault .portOutsideRules :=
  (if_pos h).trans (if_neg (by simp [hp]))

/-- Every move but reset is checked (log entry 7). -/
theorem exists_checked_of_ne_reset (hm : m ≠ .reset) (s : State) : ∃ r, moveStep m s = checked s r := by
  cases m with
  | reset => exact absurd rfl hm
  | _ => exact ⟨_, rfl⟩

/-- The values of PHASE outside R38. -/
theorem State.phaseLegal_eq_false
    (h : (s.phase = .idle ∧ s.busy = true) ∨ (s.phase ≠ .idle ∧ s.busy = false) ∨
      (∃ i, s.phase = .encPix i ∧ s.leds ≤ i) ∨ (∃ k, s.phase = .tx k ∧ s.txWords < k)) : s.phaseLegal = false := by
  by_contra hlegal
  have hlegal : s.phaseLegal = true := by simpa using hlegal
  obtain ⟨hph, hb⟩ | ⟨hph, hb⟩ | ⟨i, hph, hi⟩ | ⟨k, hph, hk⟩ := h
  · simp [State.busy_eq_false_of_idle hlegal hph] at hb
  · exact hph (State.phase_eq_idle_of_free hlegal hb)
  · simp only [State.phaseLegal, hph, Bool.and_eq_true, decide_eq_true_eq] at hlegal
    omega
  · simp only [State.phaseLegal, hph, Bool.and_eq_true, decide_eq_true_eq] at hlegal
    omega

/-- The values of a PORT outside R45. -/
theorem State.portsLegal_eq_false
    (h : (∃ (p : Nat) (c : Color) (i : Nat), s.ports[p]? = some (.filling c i) ∧ s.leds ≤ i) ∨
      (∃ p : Nat, s.ports[p]? = some .updating ∧ (s.busy = false ∨ s.owner ≠ p))) : s.portsLegal = false := by
  by_contra hlegal
  have hport := s.portsLegal_iff.mp (by simpa using hlegal)
  obtain ⟨p, c, i, hp, hi⟩ | ⟨p, hp, hb⟩ := h
  · have hlt : i < s.leds := by simpa [State.portLegal] using hport p _ hp
    omega
  · have hown : s.busy = true ∧ s.owner = p := by simpa [State.portLegal] using hport p _ hp
    simp [hown] at hb

theorem readSymbol_of_unwritten {k : Nat} (h : s.txbuf.read k = none) : readSymbol s k = .error .txbufUnwritten := by
  simp [readSymbol, h]

/-- Settles O20: inside the rules each of the three steps comes to its read, which faults; outside them `checked`
faults whatever the step would do. -/
theorem unwrittenReadsFault : Obligations.UnwrittenReadsFault := by
  intro s
  refine ⟨fun hr hl hfit => ⟨fun i hi hnone => ?getPixel, fun i hph hnone => ?encPix, fun k hph hk hnone => ?word⟩,
    fun m hm => ⟨fun h => ?phase, fun hl h => ?port⟩⟩
  case getPixel =>
    show execGetPixel i s = _
    rw [execGetPixel_of_inRange hl hi, readPixel_of_unwritten hi hfit hnone, proceed_error]
  case encPix =>
    have hread := readPixel_of_unwritten (State.index_lt_leds_of_encPix hr hph) hfit hnone
    rw [moveStep_of_rulesHold hr]
    show engineStep s = _
    rw [engineStep_encPix hph, encPixStep, hread, proceed_error]
  case word =>
    rw [moveStep_of_rulesHold hr]
    simp [transportWordStep, hph, hk, readSymbol_of_unwritten hnone]
  case phase =>
    obtain ⟨r, hmove⟩ := exists_checked_of_ne_reset hm s
    exact hmove.trans (checked_of_phase_illegal (State.phaseLegal_eq_false h) r)
  case port =>
    obtain ⟨r, hmove⟩ := exists_checked_of_ne_reset hm s
    exact hmove.trans (checked_of_ports_illegal hl (State.portsLegal_eq_false h) r)

end Faults

end Sys2Proof.Machine
end

