-- ==== Sys2Proof/Proofs/Runs.lean ====
section
/-!
PROOFS. Runs that nothing interrupts (spec/70_reset_and_hazards.md R352): a fill to its end, an encode pass, the
transmission of the words, and a whole UPDATE.
-/

namespace Sys2Proof.Machine

variable {s t u : State}

/-! ## Runs over listed moves -/

/-- From `s` the moves `ms` lead to `t`, whatever is listed after them. -/
def Runs (ms : List Move) (s t : State) : Prop :=
  ∀ rest, Host.Core.run Sys2Proof.core ms.length (s.withMoves (ms ++ rest)) = .next (t.withMoves rest)

namespace Runs

variable {m : Move} {ms ns : List Move}

theorem nil (s : State) : Runs [] s s := fun _ => rfl

theorem append (h : Runs ms s t) (h' : Runs ns t u) : Runs (ms ++ ns) s u := fun rest => by
  rw [List.length_append, List.append_assoc, run_add _ _ (h (ns ++ rest))]
  exact h' rest

theorem single (h : ∀ rest, step (s.withMoves (m :: rest)) = .next (t.withMoves rest)) : Runs [m] s t :=
  fun rest => run_succ 0 (h rest)

theorem cons (h : ∀ rest, step (s.withMoves (m :: rest)) = .next (t.withMoves rest)) (h' : Runs ms t u) :
    Runs (m :: ms) s u :=
  (single h).append h'

/-- With nothing listed after them, the moves are the whole of the run. -/
theorem run_eq (h : Runs ms s t) :
    Host.Core.run Sys2Proof.core ms.length (s.withMoves ms) = .next (t.withMoves []) := by
  simpa using h []

end Runs

/-- Entries that read as a list, without the first of them. -/
theorem reads_tail {α : Type} {read : Nat → Option α} {a : α} {l : List α} {i : Nat}
    (h : ∀ j, j < (a :: l).length → read (i + j) = (a :: l)[j]?) : ∀ j, j < l.length → read (i + 1 + j) = l[j]? := by
  intro j hj
  have hnext := h (j + 1) (Nat.succ_lt_succ hj)
  rwa [List.getElem?_cons_succ, Nat.add_comm j 1, ← Nat.add_assoc] at hnext

/-! ## A fill -/

section Fill

variable {p : Nat} {tok : Bool} {c : Color}

/-- The state after steps of a fill by port `p`: PIXEL is `mem` and the port holds `q` (R166). -/
def State.filled (s : State) (p : Nat) (tok : Bool) (mem : Memory Color) (q : PortState) : State :=
  ((s.setDraw { port := p, tok := tok }).setPixels mem).setPort p q

theorem State.filled_filled (mem mem' : Memory Color) (q q' : PortState) :
    (s.filled p tok mem q).filled p tok mem' q' = s.filled p tok mem' q' := by
  simp [State.filled, State.setPort, State.setPixels, State.setDraw]

theorem State.filled_rulesHold {i : Nat} (mem : Memory Color) (hr : s.rulesHold = true) (hi : i < s.leds) :
    (s.filled p tok mem (.filling c i)).rulesHold = true := by
  obtain ⟨hphase, hports⟩ := s.rulesHold_iff.mp hr
  exact (State.rulesHold_iff _).mpr ⟨hphase, State.setPort_portsLegal hports (decide_eq_true hi)⟩

/-- R166, the port's next state chosen by `hq`. -/
theorem step_fill {i : Nat} {q : PortState} (hr : s.rulesHold = true) (hp : s.ports[p]? = some (.filling c i))
    (hfit : s.leds ≤ s.params.maxLeds)
    (hq : (if i + 1 = s.leds then .done 0x00000000#32 else .filling c (i + 1)) = q) (rest : List Move) :
    step (s.withMoves (.port p tok :: rest)) = .next ((s.filled p tok (s.pixel.write i c) q).withMoves rest) := by
  subst hq
  exact step_filling (s := s.withMoves (.port p tok :: rest)) hr rfl hp hfit

/-- A fill from entry `i` on: one step an entry, to the last of the strip. -/
theorem fill_runs (n : Nat) {s : State} {i : Nat} (hr : s.rulesHold = true) (hp : s.ports[p]? = some (.filling c i))
    (hfit : s.leds ≤ s.params.maxLeds) (hn : i + n = s.leds) :
    ∃ mem : Memory Color,
      Runs (List.replicate n (.port p tok)) s (s.filled p tok mem (.done 0x00000000#32)) ∧
      ∀ j, mem.read j = if i ≤ j ∧ j < s.leds then some c else s.pixel.read j := by
  induction n generalizing s i with
  | zero => exact absurd (State.index_lt_leds_of_filling hr hp) (by omega)
  | succ n ih =>
    obtain hlast | hnext : i + 1 = s.leds ∨ i + 1 < s.leds := by omega
    · obtain rfl : n = 0 := by omega
      refine ⟨s.pixel.write i c, Runs.single (step_fill hr hp hfit (if_pos hlast)), fun j => ?_⟩
      rw [Memory.read_write]
      exact if_congr (by omega) rfl rfl
    · have hlt : p < s.ports.length := (List.getElem?_eq_some_iff.mp hp).1
      obtain ⟨mem, hruns, hmem⟩ := ih (State.filled_rulesHold (tok := tok) (s.pixel.write i c) hr hnext)
        (State.port_setPort_same _ _ _ hlt) hfit (show i + 1 + n = s.leds by omega)
      rw [State.filled_filled] at hruns
      refine ⟨mem, Runs.cons (step_fill hr hp hfit (if_neg hnext.ne)) hruns, fun j => (hmem j).trans ?_⟩
      show (if i + 1 ≤ j ∧ j < s.leds then some c else (s.pixel.write i c).read j) = _
      rw [Memory.read_write]
      by_cases hj : j = i
      · subst hj
        simp [show j < s.leds by omega]
      · rw [if_neg hj]
        exact if_congr (by omega) rfl rfl

end Fill

/-- Settles O29: `fill_runs` from entry 0. -/
theorem fillRunsToItsEnd : Obligations.FillRunsToItsEnd := by
  intro s p tok c hr hp hfit
  obtain ⟨mem, hruns, hmem⟩ := fill_runs (tok := tok) s.leds hr hp hfit (Nat.zero_add _)
  have hrun := hruns.run_eq
  rw [List.length_replicate] at hrun
  exact ⟨_, hrun, fun j => (hmem j).trans (by simp), rfl⟩

/-! ## An encode pass -/

section EncodePass

variable {cs : List Color}

theorem Memory.writeAll_append {α : Type} (mem : Memory α) (k : Nat) (vs ws : List α) :
    mem.writeAll k (vs ++ ws) = (mem.writeAll k vs).writeAll (k + vs.length) ws := by
  induction vs generalizing mem k with
  | nil => rfl
  | cons v vs ih =>
    rw [List.cons_append, Memory.writeAll, ih, Memory.writeAll, List.length_cons, Nat.add_assoc, Nat.add_comm 1]

/-- The writes of the three kinds of encode step are one write of the frame (R190, R191). -/
theorem Memory.writeAll_frame (mem : Memory Symbol) (m : StripModel) (cs : List Color) :
    ((mem.writeAll 0 [0#16]).writeAll 1 (cs.flatMap (pixelSymbols m))).writeAll (1 + 6 * cs.length)
      (List.replicate (resetDelay m) 0#16) = mem.writeAll 0 (frame m cs) := by
  have hparts : frame m cs = [0#16] ++ (cs.flatMap (pixelSymbols m) ++ List.replicate (resetDelay m) 0#16) := rfl
  rw [hparts, Memory.writeAll_append, Memory.writeAll_append, length_flatMap_pixelSymbols]
  rfl

/-- The phase in which pixel `i` is next (R194, R195). -/
def State.pixelPhase (s : State) (i : Nat) : Phase := if i < s.leds then .encPix i else .encTail

/-- The state once TXBUF is `mem` and pixel `i` is next. -/
def State.encodedTo (s : State) (mem : Memory Symbol) (i : Nat) : State :=
  (s.setTxbuf mem).setPhase (s.pixelPhase i)

theorem State.encodedTo_rulesHold {i : Nat} (mem : Memory Symbol) (hports : s.portsLegal = true) (hb : s.busy = true)
    (hi : i ≤ s.leds) : (s.encodedTo mem i).rulesHold = true :=
  (State.rulesHold_iff _).mpr ⟨(State.nextPixel_legal (s := s.setTxbuf mem) hb hi).1, hports⟩

theorem step_pixel {mem : Memory Symbol} {i : Nat} {c : Color} (hports : s.portsLegal = true) (hb : s.busy = true)
    (hcap : s.capacityHolds) (hi : i < s.leds) (hc : s.pixel.read i = some c) (rest : List Move) :
    step ((s.encodedTo mem i).withMoves (.engine :: rest)) =
      .next ((s.encodedTo (mem.writeAll (1 + 6 * i) (pixelSymbols s.model c)) (i + 1)).withMoves rest) :=
  step_encPix (s := (s.encodedTo mem i).withMoves (.engine :: rest)) (State.encodedTo_rulesHold mem hports hb hi.le) rfl
    hcap (if_pos hi) hc

/-- The engine's steps over the pixels `ds`, the first of them entry `i`: their words stand one after another. -/
theorem pixels_runs (ds : List Color) {mem : Memory Symbol} {i : Nat} (hports : s.portsLegal = true)
    (hb : s.busy = true) (hcap : s.capacityHolds) (hi : i + ds.length = s.leds)
    (hread : ∀ j, j < ds.length → s.pixel.read (i + j) = ds[j]?) :
    Runs (List.replicate ds.length .engine) (s.encodedTo mem i)
      (s.encodedTo (mem.writeAll (1 + 6 * i) (ds.flatMap (pixelSymbols s.model))) s.leds) := by
  induction ds generalizing mem i with
  | nil =>
    obtain rfl : i = s.leds := hi
    exact Runs.nil _
  | cons d ds ih =>
    rw [List.length_cons] at hi
    have hstep := step_pixel (mem := mem) hports hb hcap (show i < s.leds by omega) (hread 0 (Nat.zero_lt_succ _))
    have hrest := ih (mem := mem.writeAll (1 + 6 * i) (pixelSymbols s.model d)) (i := i + 1) (by omega)
      (reads_tail hread)
    rw [List.flatMap_cons, Memory.writeAll_append, length_pixelSymbols, Nat.add_assoc 1, ← Nat.mul_succ]
    exact Runs.cons hstep hrest

/-- The state after a whole pass over the colours `cs` (R196, R197). -/
def State.encoded (s : State) (cs : List Color) : State :=
  ((s.setTxbuf (s.txbuf.writeAll 0 (frame s.model cs))).emit (.frameStart (16 * s.txWords))).setPhase (.tx 0)

theorem State.encoded_txWords : (s.encoded cs).txWords = s.txWords := rfl

theorem State.encoded_txbufHolds : (s.encoded cs).txbufHolds (frame s.model cs) :=
  State.txbufHolds_writeAll s.txbufHolds_nil rfl _

/-- R190, R197: from `ENC_HEAD` the engine's `L + 2` steps write the frame of the pixels and hand it over. -/
theorem encodePass_runs (hports : s.portsLegal = true) (hb : s.busy = true) (hcap : s.capacityHolds)
    (hph : s.phase = .encHead) (hpix : s.pixelsAre cs) :
    Runs (List.replicate (s.leds + 2) .engine) s (s.encoded cs) := by
  obtain ⟨hlen, hread⟩ := hpix
  have hlegal : s.phaseLegal = true := by simpa [State.phaseLegal, hph] using hb
  have hhead (rest : List Move) : step (s.withMoves (.engine :: rest)) =
      .next ((s.encodedTo (s.txbuf.writeAll 0 [0#16]) 0).withMoves rest) :=
    step_encHead (s := s.withMoves (.engine :: rest)) (s.rulesHold_iff.mpr ⟨hlegal, hports⟩) rfl hcap hph
  have hpixels := pixels_runs (mem := s.txbuf.writeAll 0 [0#16]) (i := 0) cs hports hb hcap (by omega)
    fun j hj => by rw [Nat.zero_add]; exact hread j (hlen ▸ hj)
  have htail (mem : Memory Symbol) (rest : List Move) : step ((s.encodedTo mem s.leds).withMoves (.engine :: rest)) =
      .next ((((s.setTxbuf (mem.writeAll (1 + 6 * s.leds) (List.replicate s.resetWords 0#16))).emit
        (.frameStart (16 * s.txWords))).setPhase (.tx 0)).withMoves rest) :=
    step_encTail (s := (s.encodedTo mem s.leds).withMoves (.engine :: rest))
      (State.encodedTo_rulesHold mem hports hb le_rfl) rfl hcap (if_neg (lt_irrefl _))
  have hall := (Runs.cons hhead hpixels).append (Runs.single (htail _))
  rw [← hlen, State.resetWords, Memory.writeAll_frame] at hall
  rwa [← hlen, List.replicate_succ, List.replicate_succ']

/-- Settles O49: the pass is `encodePass_runs`, and TXBUF then reads the frame where it was written and elsewhere what
it read before. -/
theorem encodePassWritesTheFrame : Obligations.EncodePassWritesTheFrame := by
  intro s cs hinv hph hpix
  have hb : s.busy = true := State.busy_of_phase_ne_idle hinv.phaseInRules (by simp [hph])
  have hrun := (encodePass_runs hinv.portsLegal hb (hinv.capacityHolds_of_phase (by simp [hph])) hph hpix).run_eq
  rw [List.length_replicate] at hrun
  refine ⟨_, hrun, ?frame, fun k hk => ?others, ?rest⟩
  case frame => exact State.encoded_txbufHolds
  case others => exact Memory.read_writeAll_outside _ _ (.inr (by rwa [Nat.zero_add, length_frame_eq_txWords hpix.1]))
  case rest => rfl

end EncodePass

/-! ## A transmission -/

section Transmission

variable {ok : Bool}

/-- The state once words have been sent: WIRE has grown by `es` and word `k` is next (R237). -/
def State.sentTo (s : State) (es : List WireEvent) (k : Nat) : State :=
  { s with wire := s.wire ++ es, phase := .tx k }

theorem State.sentTo_rulesHold {k : Nat} (es : List WireEvent) (hports : s.portsLegal = true) (hb : s.busy = true)
    (hk : k ≤ s.txWords) : (s.sentTo es k).rulesHold = true := by
  refine (State.rulesHold_iff _).mpr ⟨?_, hports⟩
  show (s.busy && decide (k ≤ s.txWords)) = true
  rw [hb]
  exact decide_eq_true hk

theorem State.sentTo_nil {k : Nat} (hph : s.phase = .tx k) : s.sentTo [] k = s := by
  rw [State.sentTo, List.append_nil, ← hph]

theorem State.sentTo_emit (s : State) (es : List WireEvent) (e : WireEvent) (k k' : Nat) :
    ((s.sentTo es k).emit e).setPhase (.tx k') = s.sentTo (es ++ [e]) k' := by
  simp [State.sentTo, State.emit, State.setPhase]

theorem step_word {es : List WireEvent} {k : Nat} {w : Symbol} (hports : s.portsLegal = true) (hb : s.busy = true)
    (hk : k < s.txWords) (hw : s.txbuf.read k = some w) (rest : List Move) :
    step ((s.sentTo es k).withMoves (.transportWord :: rest)) =
      .next ((s.sentTo (es ++ [WireEvent.word k w]) (k + 1)).withMoves rest) := by
  rw [← State.sentTo_emit s es _ k]
  exact transportTakesWordsInOrder ((s.sentTo es k).withMoves (.transportWord :: rest)) rest k w
    (State.sentTo_rulesHold es hports hb hk.le) rfl rfl hk hw

/-- The transport's steps over the words `ws`, the first of them word `k`. -/
theorem words_runs (ws : List Symbol) {es : List WireEvent} {k : Nat} (hports : s.portsLegal = true)
    (hb : s.busy = true) (hfit : k + ws.length ≤ s.txWords)
    (hread : ∀ j, j < ws.length → s.txbuf.read (k + j) = ws[j]?) :
    Runs (List.replicate ws.length .transportWord) (s.sentTo es k)
      (s.sentTo (es ++ wordEvents k ws) (k + ws.length)) := by
  induction ws generalizing es k with
  | nil =>
    rw [wordEvents, List.append_nil]
    exact Runs.nil _
  | cons w ws ih =>
    rw [List.length_cons] at hfit
    have hstep := step_word (es := es) hports hb (show k < s.txWords by omega) (hread 0 (Nat.zero_lt_succ _))
    have hrest := ih (es := es ++ [WireEvent.word k w]) (k := k + 1) (by omega) (reads_tail hread)
    rw [List.append_assoc, List.singleton_append, Nat.add_assoc, Nat.add_comm 1] at hrest
    exact Runs.cons hstep hrest

/-- The state once the transmission has completed (R238). -/
def State.completed (s : State) (ok : Bool) : State :=
  { s with
    wire := s.wire ++ [.frameEnd (if ok then .ok else .transmitError)], busy := false, phase := .idle
    ports := s.ports.set s.owner (.done (if ok then 0x00000000#32 else 0x00000004#32)) }

theorem step_completion {k : Nat} (hr : s.rulesHold = true) (hph : s.phase = .tx k) (hok : ok = true → k = s.txWords)
    (ho : s.ports[s.owner]? = some .updating) (rest : List Move) :
    step (s.withMoves (.transportEnd ok :: rest)) = .next ((s.completed ok).withMoves rest) :=
  calc step (s.withMoves (.transportEnd ok :: rest))
    _ = moveStep (.transportEnd ok) (s.withMoves rest) := step_withMoves ..
    _ = transportEndStep ok (s.withMoves rest) := moveStep_of_rulesHold (s := s.withMoves rest) hr _
    _ = finishTransmission ok (s.withMoves rest) := transportEndStep_of_tx hph hok
    _ = .next _ := finishTransmission_of_updating ho
    _ = _ := by rw [respond_eq, responseWord_transmitStatus]; rfl

/-- Settles O51: a completion that is allowed is `step_completion`; one with OK before the last word is not enabled. -/
theorem transmissionCompletes : Obligations.TransmissionCompletes := by
  intro s rest ok k hr hs hph ho
  rw [step_of_sched hs, ← step_withMoves]
  refine ⟨fun hok => step_completion hr hph hok ho rest, fun hok hk => ?early⟩
  case early =>
    have hdisabled : s.enabled (.transportEnd ok) = false := by simp [State.enabled, hph, hok, hk]
    calc step (s.withMoves (.transportEnd ok :: rest))
      _ = moveStep (.transportEnd ok) (s.withMoves rest) := step_withMoves ..
      _ = transportEndStep ok (s.withMoves rest) := moveStep_of_rulesHold (s := s.withMoves rest) hr _
      _ = _ := transportEndStep_of_disabled (s := s.withMoves rest) hdisabled

/-- R237, R238: from `TX(0)`, the first `k` words of TXBUF and a completion. -/
theorem transmission_runs {ws : List Symbol} {k : Nat} (hports : s.portsLegal = true) (hb : s.busy = true)
    (ho : s.ports[s.owner]? = some .updating) (hph : s.phase = .tx 0) (hlen : ws.length = s.txWords)
    (hholds : s.txbufHolds ws) (hk : k ≤ s.txWords) (hok : ok = true → k = s.txWords) :
    Runs (List.replicate k Move.transportWord ++ [Move.transportEnd ok]) s
      ((s.sentTo (wordEvents 0 (ws.take k)) k).completed ok) := by
  have htake : (ws.take k).length = k := List.length_take_of_le (hk.trans hlen.ge)
  have hwords := words_runs (es := []) (k := 0) (ws.take k) hports hb (by omega) fun j hj => by
    rw [htake] at hj
    rw [Nat.zero_add, hholds j (by omega), List.getElem?_take_of_lt hj]
  rw [htake, Nat.zero_add, List.nil_append, State.sentTo_nil hph] at hwords
  exact hwords.append (Runs.single (step_completion (State.sentTo_rulesHold _ hports hb hk) rfl hok ho))

/-- Settles O52: under the invariants the gate is taken and its owner is updating. -/
theorem transmissionSendsEachWordOnceInOrder : Obligations.TransmissionSendsEachWordOnceInOrder := by
  intro s ws ok k hinv hph hlen hholds hk hok
  have hb : s.busy = true := State.busy_of_phase_ne_idle hinv.phaseInRules (by simp [hph])
  have hrun := (transmission_runs hinv.portsLegal hb (hinv.ownerUpdating hb) hph hlen hholds hk hok).run_eq
  rwa [List.length_append, List.length_replicate] at hrun

end Transmission

/-! ## An update -/

section Update

variable {p : Nat} {tok : Bool} {cs : List Color}

/-- The state once port `p` has taken the gate (R231). -/
def State.taken (s : State) (p : Nat) (tok : Bool) : State :=
  (((s.setDraw { port := p, tok := tok }).takeGate p).setPhase .encHead).setPort p .updating

theorem step_acceptance {w : CmdWord} (hr : s.rulesHold = true) (hl : s.life = .ready) (hb : s.busy = false)
    (hp : s.ports[p]? = some (.pending w)) (hd : decode w = .ok .update) (rest : List Move) :
    step (s.withMoves (.port p tok :: rest)) = .next ((s.taken p tok).withMoves rest) :=
  (stepRunsThePendingCommand (s.withMoves (.port p tok :: rest)) p tok rest w .update hr rfl hp hd).trans
    (updateTakesTheGate _ hl hb)

theorem State.taken_leds : (s.taken p tok).leds = s.leds := rfl

theorem State.taken_txWords : (s.taken p tok).txWords = s.txWords := rfl

/-- An encode pass and the transmission of all its words, one after the other (R190, R237, R238). -/
theorem encode_and_send_runs (hinv : s.Inv) (hph : s.phase = .encHead) (hpix : s.pixelsAre cs) :
    Runs (List.replicate (s.leds + 2) Move.engine ++
        (List.replicate s.txWords Move.transportWord ++ [Move.transportEnd true])) s
      (((s.encoded cs).sentTo (wordEvents 0 (frame s.model cs)) s.txWords).completed true) := by
  have hb : s.busy = true := State.busy_of_phase_ne_idle hinv.phaseInRules (by simp [hph])
  have hlen : (frame s.model cs).length = s.txWords := length_frame_eq_txWords hpix.1
  have hencode := encodePass_runs hinv.portsLegal hb (hinv.capacityHolds_of_phase (by simp [hph])) hph hpix
  have hsend := transmission_runs (s := s.encoded cs) (ok := true) (k := s.txWords) hinv.portsLegal hb
    (hinv.ownerUpdating hb) rfl (hlen.trans State.encoded_txWords.symm) State.encoded_txbufHolds
    State.encoded_txWords.ge fun _ => State.encoded_txWords.symm
  rw [List.take_of_length_le hlen.le] at hsend
  exact hencode.append hsend

/-- Settles O53: the acceptance, then the encode pass and the transmission. -/
theorem updateSendsTheFrameOfThePixels : Obligations.UpdateSendsTheFrameOfThePixels := by
  intro s p tok w cs hinv hl hb hp hd hpix
  have htaken : (s.taken p tok).Inv := (hinv.setDraw _).acquire hp hl hb
  have hrun := (Runs.cons (step_acceptance hinv.rulesHold hl hb hp hd)
    (encode_and_send_runs (cs := cs) htaken rfl hpix)).run_eq
  rw [State.taken_leds, State.taken_txWords] at hrun
  refine ⟨_, hrun, ?wire, ?ports, rfl, rfl, ?owner, ?txbuf, ?pixel, ?life, ?model, ?count, ?tcfg⟩
  case txbuf => exact State.encoded_txbufHolds (s := s.taken p tok)
  all_goals simp [State.withMoves, State.completed, State.sentTo, State.encoded, State.taken]

end Update

end Sys2Proof.Machine
end
